-- ==== Sys2Proof/Word.lean ====
section
/-!
DEFINITION. The machine's one word type: every register, memory cell and operand is an unsigned 8-bit value
(00_scope.md R10).
-/

namespace Sys2Proof

/-- An unsigned byte, 0..255; bit 7 is the most significant (R10, R11). -/
abbrev Byte := BitVec 8

end Sys2Proof
end

