-- ==== Sys2Proof/Config.lean ====
section
/-!
DEFINITION. The fixed parameters of 00_scope.md R8, and the parameters the spec leaves open (00_scope.md R9), which
have no body here: no proof can learn a value of theirs.
-/

namespace Sys2Proof

/-- `MEMSIZE`: memory cells, addresses 0..255 (R8, R50). -/
abbrev Config.memSize : Nat := 256

/-- `NREG`: registers, indices 0..7 (R8, R20). -/
abbrev Config.nReg : Nat := 8

/-- `SP_RESET`: the stack pointer's reset value (R8, R25). -/
abbrev Config.spReset : Byte := 0xF4#8

/-- `PC_RESET`: the program counter's reset value (R8, R29). -/
abbrev Config.pcReset : Nat := 0

/-- The draw behind `OOB_EXIT_STATUS`; any integer. Log entry 14. -/
opaque Config.oobExitDraw : Int

/-- `OOB_EXIT_STATUS` (D13, R222): an open non-zero integer. The draw is moved past 0, so every non-zero integer is a
possible value and 0 is none. Log entry 14. -/
def Config.oobExitStatus : Int :=
  if 0 ≤ Config.oobExitDraw then Config.oobExitDraw + 1 else Config.oobExitDraw

/-- `LINE_TERMINATOR` (D12, R137): the open text the sink writes after each value. Log entry 13. -/
opaque Config.lineTerminator : List Char

/-- The exit status after the loader refuses an image of more than 256 bytes (D11, R216): the spec states none, so it is
open (DESIGN CHOICE, log entry 12). -/
opaque Config.oversizeExitStatus : Int

end Sys2Proof
end

