-- ==== Sys2Proof/Machine/State.lean ====
section
/-!
DEFINITION. The state of one CORE instance as plain data: the architectural tuple of 10_state.md R39 and the hidden
registers of R35, with its reset value (R39, R241), and the reasons a step can stop.
-/

namespace Sys2Proof.Machine

/-- A register index, 0..7 (10_state.md R20). -/
abbrev RegIndex := Fin 8

/-- The stack pointer is register 7 (10_state.md R23). -/
abbrev spIndex : RegIndex := 7

/-- Memory as the list of the cells that are not 0, addresses strictly rising; every cell not listed is 0, the value it
has at reset (10_state.md R34, 20_memory.md R50). `Memory.wf` (Machine/Ops.lean) says the form. -/
abbrev Memory := List Host.Cell

/-- The classes of an OutOfBounds fault (60_exceptions.md R212). -/
inductive AccessClass where
  /-- Opcode fetch at `pc`. -/
  | fetch
  /-- Operand fetch at `pc+1` or `pc+2`. -/
  | operand
  /-- A register-operand byte of 8 or more. -/
  | reg
  deriving DecidableEq, Repr

/-- What the ALU is asked to do. The enumeration of operations is ADD and MUL (42_alu.md R150); `unimplemented` stands
for any operation outside it, which the ALU refuses with UnsupportedOperation and the decoder never asks for (R156).
The slot number is the model's label (log entry 15). -/
inductive AluOp where
  | add
  | mul
  | unimplemented (slot : Byte)
  deriving DecidableEq, Repr

/-- The kind and the info of a fault (10_state.md R31, 60_exceptions.md R210). -/
inductive FaultCause where
  /-- UnknownInstruction with the opcode byte (R215). -/
  | unknownInstruction (ir : Byte)
  /-- OutOfBounds with its class and the offending address or index (R212). -/
  | outOfBounds (cls : AccessClass) (value : Nat)
  /-- UnsupportedOperation with the operation (R211); no program reaches it. -/
  | unsupportedOperation (op : AluOp)
  deriving DecidableEq, Repr

/-- The fault record `(kind, info, fpc)` (10_state.md R31). -/
structure FaultRecord where
  /-- Kind and info. -/
  cause : FaultCause
  /-- The value of `pc` at the faulting step. -/
  fpc : Nat
  deriving DecidableEq, Repr

/-- The run state (10_state.md R30). -/
inductive RunState where
  | running | halted | faulted
  deriving DecidableEq, Repr

/-- The engine's registers that are not architectural (10_state.md R35): no instruction reads a value that an earlier
step left in one. MAR's width is log entry 4. -/
structure Hidden where
  /-- Instruction register: the opcode byte fetched at `pc`. -/
  ir : Byte
  /-- Operand latch: the byte at `pc+1`. -/
  opa : Byte
  /-- Operand latch: the byte at `pc+2`. -/
  opb : Byte
  /-- MAR: the address of the last single memory access. -/
  mar : Byte
  /-- MDR: the value of the last single memory access. -/
  mdr : Byte
  deriving DecidableEq, Repr

/-- The whole state of one CORE instance (10_state.md R35, R39). -/
structure State where
  /-- `x[0..7]` (R20). -/
  regs : Vector Byte 8
  /-- `pc`, a natural number never reduced modulo 256 (R26). -/
  pc : Nat
  /-- `mem[0..255]` (R34). -/
  mem : Memory
  /-- `state` (R30). -/
  runState : RunState
  /-- `fault` (R31). -/
  fault : Option FaultRecord
  /-- `out`, oldest value first (R33). -/
  out : List Byte
  /-- IR, the operand latches, MAR and MDR (R35). -/
  hidden : Hidden
  deriving DecidableEq, Repr

/-- Why the step input finds no step to take. The fatal conditions of the spec are NOT here: a step that raises one
answers a next state, FAULTED with its record (60_exceptions.md R213, log entry 2). -/
inductive Fault where
  /-- `step` on a HALTED state: the engine takes no step (40_cycle.md R110). Safe: nothing runs, as in the spec. -/
  | engineHalted
  /-- `step` on a FAULTED state: the engine takes no step (40_cycle.md R110). Safe: nothing runs, as in the spec. -/
  | engineFaulted
  deriving DecidableEq, Repr

/-- Why an instruction has no meaning. No instruction of this model is refused. -/
inductive Refusal where
  /-- Raised by an arm of `exec` whose instruction has no meaning yet; there is none. Safe. -/
  | notModelled (mnemonic : String)
  deriving DecidableEq, Repr

/-- The machine right after reset (10_state.md R39, 70_reset_and_hazards.md R241). The hidden registers' zeros are the
model's (the spec states no value): DESIGN CHOICE, log entry 3. -/
def State.reset : State where
  regs := #v[0#8, 0#8, 0#8, 0#8, 0#8, 0#8, 0#8, Config.spReset]
  pc := Config.pcReset
  mem := []
  runState := .running
  fault := none
  out := []
  hidden := { ir := 0#8, opa := 0#8, opb := 0#8, mar := 0#8, mdr := 0#8 }

end Sys2Proof.Machine
end

