-- ==== Sys2Proof/Machine/Ops.lean ====
section
/-!
DEFINITION. The named operations over memory, registers, pc, output and hidden registers, and taking a fault.
-/

namespace Sys2Proof.Machine

/-! ### The memory array (20_memory.md R50, R52) -/

/-- The byte in cell `a`; a cell not listed is 0 (10_state.md R34). -/
def Memory.read : Memory → Nat → Byte
  | [], _ => 0#8
  | (k, v) :: rest, a => if k = a then v else Memory.read rest a

/-- Put a cell before the first one of a higher address. -/
def Memory.insertCell : Memory → Nat → Byte → Memory
  | [], a, v => [(a, v)]
  | (k, w) :: rest, a, v => if a < k then (a, v) :: (k, w) :: rest else (k, w) :: Memory.insertCell rest a v

/-- Forget what cell `a` held. -/
def Memory.eraseCell (m : Memory) (a : Nat) : Memory := m.filter fun c => decide (c.1 ≠ a)

/-- Store `v` in cell `a`. A cell that becomes 0 is listed no more, so that equal memories are equal lists. -/
def Memory.write (m : Memory) (a : Nat) (v : Byte) : Memory :=
  if v = 0#8 then m.eraseCell a else (m.eraseCell a).insertCell a v

/-- Addresses rise strictly from above `low`. -/
def Memory.risingFrom : Nat → Memory → Bool
  | _, [] => true
  | low, (k, _) :: rest => decide (low ≤ k) && Memory.risingFrom (k + 1) rest

/-- The canonical form: addresses strictly rising, every one inside memory, and no listed cell 0. -/
def Memory.wf (m : Memory) : Bool :=
  Memory.risingFrom 0 m && m.all fun c => decide (c.1 < Config.memSize) && decide (c.2 ≠ 0#8)

/-- The contract's `read(address)`: it fails outside [0, 256) (20_memory.md R52). -/
def Memory.readChecked (m : Memory) (a : Nat) : Option Byte :=
  if a < Config.memSize then some (m.read a) else none

/-- The contract's `write(address, byte)`: it fails outside [0, 256) (20_memory.md R52). -/
def Memory.writeChecked (m : Memory) (a : Nat) (v : Byte) : Option Memory :=
  if a < Config.memSize then some (m.write a v) else none

/-- Write bytes at consecutive addresses from `a`, each by the contract's write; `none` if one of them fails
(70_reset_and_hazards.md R243). -/
def Memory.writeBytes : List Byte → Nat → Memory → Option Memory
  | [], _, m => some m
  | b :: bs, a, m =>
    match m.writeChecked a b with
    | none => none
    | some m' => Memory.writeBytes bs (a + 1) m'

/-! ### Registers (10_state.md R20, R21) -/

/-- `x[r]`. -/
def State.reg (s : State) (r : RegIndex) : Byte := s.regs[r]

/-- `x[r] <- v`; the type keeps the value modulo 256 (R21). -/
def State.setReg (s : State) (r : RegIndex) (v : Byte) : State := { s with regs := s.regs.set r v }

/-- `x[7] <- (x[7] - 1) mod 256` (43_stack.md R170). -/
def State.decSp (s : State) : State := s.setReg spIndex (s.reg spIndex - 1#8)

/-- `x[7] <- (x[7] + 1) mod 256` (43_stack.md R170). -/
def State.incSp (s : State) : State := s.setReg spIndex (s.reg spIndex + 1#8)

/-! ### Program counter, output and run state -/

/-- `pc <- target`. -/
def State.setPc (s : State) (target : Nat) : State := { s with pc := target }

/-- The sequential advance by the instruction's width, not reduced modulo 256 (40_cycle.md R115, 10_state.md R29). -/
def State.advance (s : State) (width : Nat) : State := s.setPc (s.pc + width)

/-- `out <- out ++ [v]` (10_state.md R33). -/
def State.emit (s : State) (v : Byte) : State := { s with out := s.out ++ [v] }

/-- `state <- HALTED` (41_hlt_ldi_prn.md R130). -/
def State.halt (s : State) : State := { s with runState := .halted }

/-! ### Hidden registers (10_state.md R35) -/

/-- One memory access leaves its address in MAR and its value in MDR (log entry 4). -/
def State.latchAccess (s : State) (a v : Byte) : State := { s with hidden := { s.hidden with mar := a, mdr := v } }

/-- `ir <- v` (40_cycle.md R111). -/
def State.latchIr (s : State) (v : Byte) : State := { s with hidden := { s.hidden with ir := v } }

/-- `opa <- v` (40_cycle.md R112). -/
def State.latchOpa (s : State) (v : Byte) : State := { s with hidden := { s.hidden with opa := v } }

/-- `opb <- v` (40_cycle.md R112). -/
def State.latchOpb (s : State) (v : Byte) : State := { s with hidden := { s.hidden with opb := v } }

/-! ### Memory accesses (20_memory.md R52, R55) -/

/-- `MemRead(a, 1)` for the access class `cls`: the byte and the state after the access, or the fault's cause
(20_memory.md R52). -/
def memRead (cls : AccessClass) (a : Nat) (s : State) : Except FaultCause (Byte × State) :=
  match s.mem.readChecked a with
  | none => .error (.outOfBounds cls a)
  | some v => .ok (v, s.latchAccess (BitVec.ofNat 8 a) v)

/-- `MemWrite(a, 1, v)` for the access class `cls`: the state after `(v) mod 256` is stored in cell `a`, or the fault's
cause (20_memory.md R52, R53). -/
def memWrite (cls : AccessClass) (a v : Nat) (s : State) : Except FaultCause State :=
  match s.mem.writeChecked a (BitVec.ofNat 8 v) with
  | none => .error (.outOfBounds cls a)
  | some m => .ok { s.latchAccess (BitVec.ofNat 8 a) (BitVec.ofNat 8 v) with mem := m }

/-- The address of a stack access: the value of register 7, which is always inside memory (20_memory.md R55). -/
def stackAddress (s : State) : Nat := (s.reg spIndex).toNat

/-- `MemRead(x[7], 1)`, the byte at the stack pointer; it cannot fail (20_memory.md R55). -/
def stackByte (s : State) : Byte := s.mem.read (stackAddress s)

/-- The state after reading the byte at the stack pointer: only MAR and MDR move. -/
def State.readStack (s : State) : State := s.latchAccess (s.reg spIndex) (stackByte s)

/-- `MemWrite(x[7], 1, v)`; it cannot fail (20_memory.md R55). -/
def State.writeStack (s : State) (v : Byte) : State :=
  { s.latchAccess (s.reg spIndex) v with mem := s.mem.write (stackAddress s) v }

/-! ### Taking a fault (60_exceptions.md R213) -/

/-- `raise E(info)`: FAULTED, the record with the faulting instruction's `pc`, and nothing else. It saves nothing for a
handler and goes nowhere (R219); there is no return from it (R220). -/
def raise (cause : FaultCause) (s : State) : State :=
  { s with runState := .faulted, fault := some { cause := cause, fpc := s.pc } }

end Sys2Proof.Machine
end

