-- ==== Sys2Proof/Machine/Flags.lean ====
section
/-!
DEFINITION. The ALU's result. This hardware has no flags register, no condition code and no predicate (10_state.md R32),
and no operation records a carry or an overflow (42_alu.md R151), so this file holds no flag: it holds the one
computation of a result.
-/

namespace Sys2Proof.Machine

/-- The ALU's result: the exact integer result of two unsigned bytes, reduced modulo 256 (42_alu.md R150, R151). An
operation outside ADD and MUL fails with UnsupportedOperation (R156). -/
def aluResult : AluOp → Byte → Byte → Except FaultCause Byte
  | .add, a, b => .ok (BitVec.ofNat 8 (a.toNat + b.toNat))
  | .mul, a, b => .ok (BitVec.ofNat 8 (a.toNat * b.toNat))
  | .unimplemented slot, _, _ => .error (.unsupportedOperation (.unimplemented slot))

end Sys2Proof.Machine
end

