-- ==== Sys2Proof/Machine/Operands.lean ====
section
/-!
DEFINITION. The operand forms: a register index given by a whole operand byte (10_state.md R22, 30_encoding.md R86), and
LDI's immediate, which is the byte as it is and needs no function.
-/

namespace Sys2Proof.Machine

/-- `RegIndex(b)`: a byte of 8 or more raises OutOfBounds(REG, b); no index is masked or wrapped (10_state.md R22). -/
def regIndex (b : Byte) : Except FaultCause RegIndex :=
  if h : b.toNat < 8 then .ok ⟨b.toNat, h⟩ else .error (.outOfBounds .reg b.toNat)

/-- Check one register operand, then go on with its index; a failed check raises and writes nothing (40_cycle.md R114). -/
def withReg (a : Byte) (s : State) (k : RegIndex → Host.Outcome State Fault Refusal) :
    Host.Outcome State Fault Refusal :=
  match regIndex a with
  | .error cause => .next (raise cause s)
  | .ok r => k r

/-- Check operand `a`, then operand `b`, before anything is written (40_cycle.md R114). -/
def withRegs (a b : Byte) (s : State) (k : RegIndex → RegIndex → Host.Outcome State Fault Refusal) :
    Host.Outcome State Fault Refusal :=
  withReg a s fun d => withReg b s fun r => k d r

end Sys2Proof.Machine
end

