-- ==== Sys2Proof/Machine/Alu.lean ====
section
/-!
DEFINITION. ADD and MUL (42_alu.md).
-/

namespace Sys2Proof.Machine

/-- The ALU contract: `x[a] <- (x[a] OP x[b]) mod 256`, then `pc <- pc + 3` (42_alu.md R150, R152, R154). -/
def execAlu (op : AluOp) (a b : Byte) (s : State) : Host.Outcome State Fault Refusal :=
  withRegs a b s fun d r =>
    match aluResult op (s.reg d) (s.reg r) with
    | .error cause => .next (raise cause s)
    | .ok v => .next ((s.setReg d v).advance 3)

/-- ADD (R152). -/
def execAdd (a b : Byte) (s : State) : Host.Outcome State Fault Refusal := execAlu .add a b s

/-- MUL (R154). -/
def execMul (a b : Byte) (s : State) : Host.Outcome State Fault Refusal := execAlu .mul a b s

end Sys2Proof.Machine
end

