-- ==== Sys2Proof/Machine/HltLdiPrn.lean ====
section
/-!
DEFINITION. HLT, LDI and PRN (41_hlt_ldi_prn.md).
-/

namespace Sys2Proof.Machine

/-- HLT: `state <- HALTED`, then `pc <- pc + 1` (R130, 40_cycle.md R115). -/
def execHlt (s : State) : Host.Outcome State Fault Refusal :=
  .next (s.halt.advance 1)

/-- LDI: `x[RegIndex(a)] <- b`, then `pc <- pc + 3` (R133). -/
def execLdi (a b : Byte) (s : State) : Host.Outcome State Fault Refusal :=
  withReg a s fun d => .next ((s.setReg d b).advance 3)

/-- PRN: `out <- out ++ [x[RegIndex(a)]]`, then `pc <- pc + 2` (R136). -/
def execPrn (a : Byte) (s : State) : Host.Outcome State Fault Refusal :=
  withReg a s fun r => .next ((s.emit (s.reg r)).advance 2)

end Sys2Proof.Machine
end

