-- ==== Sys2Proof/Machine/Stack.lean ====
section
/-!
DEFINITION. PUSH and POP (43_stack.md), their statements in the order the spec writes them (D4, log entry 5).
-/

namespace Sys2Proof.Machine

/-- PUSH: the stack pointer is decremented, then `mem[x[7]] <- x[a]` with `x[a]` read after the decrement, then
`pc <- pc + 2` (R172, R173). -/
def execPush (a : Byte) (s : State) : Host.Outcome State Fault Refusal :=
  withReg a s fun r => .next ((s.decSp.writeStack (s.decSp.reg r)).advance 2)

/-- POP: `x[a] <- mem[x[7]]`, then the stack pointer, read after that write, is incremented, then `pc <- pc + 2`
(R175, R176). -/
def execPop (a : Byte) (s : State) : Host.Outcome State Fault Refusal :=
  withReg a s fun d => .next (((s.readStack.setReg d (stackByte s)).incSp).advance 2)

end Sys2Proof.Machine
end

