-- ==== Sys2Proof/Machine/Subroutine.lean ====
section
/-!
DEFINITION. CALL and RET (44_subroutine.md), their statements in the order the spec writes them (D4, log entry 5).
-/

namespace Sys2Proof.Machine

/-- The return address CALL pushes: `(pc + 2) mod 256` (R190, R191). -/
def returnAddress (s : State) : Byte := BitVec.ofNat 8 (s.pc + 2)

/-- CALL: the stack pointer is decremented, `mem[x[7]]` gets the return address, and `pc` becomes `x[a]`, read after the
decrement (R190, R192). `a` is the latched operand (D3, log entry 6). -/
def execCall (a : Byte) (s : State) : Host.Outcome State Fault Refusal :=
  withReg a s fun t => .next ((s.decSp.writeStack (returnAddress s)).setPc (s.decSp.reg t).toNat)

/-- RET: `pc <- mem[x[7]]`, then the stack pointer is incremented (R194). The row for RET in 10_state.md R21's table gives
it no register write; R194 is followed (DEDUCED, log entry 21). -/
def execRet (s : State) : Host.Outcome State Fault Refusal :=
  .next ((s.readStack.setPc (stackByte s).toNat).incSp)

end Sys2Proof.Machine
end

