-- ==== Sys2Proof/Syntax.lean ====
section
/-!
DEFINITION. The closed instruction set of nine instructions (00_scope.md R2, 30_encoding.md R82).
-/

namespace Sys2Proof

/-- The nine mnemonics, which the opcode byte alone selects (30_encoding.md R82, R83). -/
inductive Opcode where
  | hlt | ldi | prn | add | mul | push | pop | call | ret
  deriving DecidableEq, Repr

/-- An instruction with its operand bytes, one constructor per row of spec/opcode_table.json. `a` is the byte at `pc+1`
and `b` the byte at `pc+2` (30_encoding.md R80, R81). Operands stay whole bytes: a register byte 8..255 is no decode
error (R86), it raises OutOfBounds(REG) when the instruction executes. -/
inductive Instr where
  /-- HLT, halt (41_hlt_ldi_prn.md R130). -/
  | hlt
  /-- LDI, load immediate: `a` a register index, `b` the value (41_hlt_ldi_prn.md R133). -/
  | ldi (a b : Byte)
  /-- PRN, print register `a` (41_hlt_ldi_prn.md R136). -/
  | prn (a : Byte)
  /-- ADD, add register `b` into register `a` (42_alu.md R152). -/
  | add (a b : Byte)
  /-- MUL, multiply register `a` by register `b` (42_alu.md R154). -/
  | mul (a b : Byte)
  /-- PUSH, push register `a` (43_stack.md R172). -/
  | push (a : Byte)
  /-- POP, pop into register `a` (43_stack.md R175). -/
  | pop (a : Byte)
  /-- CALL, call the subroutine whose address is in register `a` (44_subroutine.md R190). -/
  | call (a : Byte)
  /-- RET, return from subroutine (44_subroutine.md R194). -/
  | ret
  deriving DecidableEq, Repr

end Sys2Proof
end

