-- ==== Sys2Proof/Decode.lean ====
section
/-!
DEFINITION. The encoding tables of 30_encoding.md, the decoder over bytes, the encoder, the reading of a table word, and
the assembly spelling.
-/

namespace Sys2Proof

/-! ### The opcode map (30_encoding.md R80, R82) -/

/-- The opcode byte, in the source's binary spelling (R82). -/
def Opcode.byte : Opcode → Byte
  | .hlt => 0b00000001#8
  | .ldi => 0b10000010#8
  | .prn => 0b01000111#8
  | .add => 0b10100000#8
  | .mul => 0b10100010#8
  | .push => 0b01000101#8
  | .pop => 0b01000110#8
  | .call => 0b01010000#8
  | .ret => 0b00010001#8

/-- The number of operand bytes: formats F1, F2 and F3 have 0, 1 and 2 (R80, R82). -/
def Opcode.operandCount : Opcode → Nat
  | .hlt => 0
  | .ldi => 2
  | .prn => 1
  | .add => 2
  | .mul => 2
  | .push => 1
  | .pop => 1
  | .call => 1
  | .ret => 0

/-- The width in bytes: the opcode byte and its operand bytes (R80). It depends on the opcode alone (R85). -/
def Opcode.width (op : Opcode) : Nat := op.operandCount + 1

/-- The literal match of the whole opcode byte (R83); `none` for the 247 illegal bytes (R87, R88). -/
def decodeOpcode (ir : Byte) : Option Opcode :=
  if ir = 0x01#8 then some .hlt
  else if ir = 0x82#8 then some .ldi
  else if ir = 0x47#8 then some .prn
  else if ir = 0xA0#8 then some .add
  else if ir = 0xA2#8 then some .mul
  else if ir = 0x45#8 then some .push
  else if ir = 0x46#8 then some .pop
  else if ir = 0x50#8 then some .call
  else if ir = 0x11#8 then some .ret
  else none

/-- The instruction of an opcode with operand bytes `a` and `b`; a format that lacks one ignores it (R80, R81). -/
def Opcode.instr (op : Opcode) (a b : Byte) : Instr :=
  match op with
  | .hlt => .hlt
  | .ldi => .ldi a b
  | .prn => .prn a
  | .add => .add a b
  | .mul => .mul a b
  | .push => .push a
  | .pop => .pop a
  | .call => .call a
  | .ret => .ret

/-! ### Decoding bytes (30_encoding.md R83, R85) -/

/-- Why bytes are no instruction. -/
inductive DecodeError where
  /-- There is no byte at all. -/
  | noOpcode
  /-- The opcode byte is outside the table (R87). -/
  | unknownInstruction (ir : Byte)
  /-- The operand byte at this offset from the opcode is not there. -/
  | missingOperand (offset : Nat)
  deriving DecidableEq, Repr

/-- Decode the instruction at the head of a list of bytes and return it with the bytes after it. Only the operand bytes
the width calls for are looked at (R85). -/
def decode (bytes : List Byte) : Except DecodeError (Instr × List Byte) :=
  match bytes with
  | [] => .error .noOpcode
  | ir :: rest =>
    match decodeOpcode ir with
    | none => .error (.unknownInstruction ir)
    | some op =>
      if rest.length < op.operandCount then .error (.missingOperand (rest.length + 1))
      else .ok (op.instr (rest.getD 0 0) (rest.getD 1 0), rest.drop op.operandCount)

/-! ### Encoding (30_encoding.md R80, R81, R82) -/

/-- The opcode of an instruction. -/
def Instr.opcode : Instr → Opcode
  | .hlt => .hlt
  | .ldi _ _ => .ldi
  | .prn _ => .prn
  | .add _ _ => .add
  | .mul _ _ => .mul
  | .push _ => .push
  | .pop _ => .pop
  | .call _ => .call
  | .ret => .ret

/-- The operand bytes of an instruction in address order (R56, R80). -/
def Instr.operands : Instr → List Byte
  | .hlt => []
  | .ldi a b => [a, b]
  | .prn a => [a]
  | .add a b => [a, b]
  | .mul a b => [a, b]
  | .push a => [a]
  | .pop a => [a]
  | .call a => [a]
  | .ret => []

/-- The bytes of an instruction in address order: opcode, operand_a, operand_b (R56, R80). -/
def encode (i : Instr) : List Byte := i.opcode.byte :: i.operands

/-! ### Words as spec/opcode_table.json numbers them -/

/-- The three bytes of a word of `nbits` bits, bit 0 the least significant bit of the first byte and every bit from
`nbits` on 0. Three bytes is the longest instruction (R80). -/
def wordBytes (nbits w : Nat) : List Byte :=
  [BitVec.ofNat 8 (w % 2 ^ nbits), BitVec.ofNat 8 (w % 2 ^ nbits / 2 ^ 8), BitVec.ofNat 8 (w % 2 ^ nbits / 2 ^ 16)]

/-- The instruction the decoder reads from a table word. -/
def decodeTableWord (nbits w : Nat) : Option Instr :=
  match decode (wordBytes nbits w) with
  | .ok (i, _) => some i
  | .error _ => none

/-! ### Text: decimal numbers and assembly spelling -/

/-- A decimal digit's character. -/
def digitChar (d : Nat) : Char := Char.ofNat (48 + d)

/-- A number below 1000 in decimal, without sign or leading zeros (41_hlt_ldi_prn.md R137). -/
def decimalText (n : Nat) : List Char :=
  if n < 10 then [digitChar n]
  else if n < 100 then [digitChar (n / 10), digitChar (n % 10)]
  else [digitChar (n / 100), digitChar (n / 10 % 10), digitChar (n % 10)]

/-- The mnemonic's letters (30_encoding.md R82, R89). -/
def Opcode.mnemonic : Opcode → List Char
  | .hlt => ['H', 'L', 'T']
  | .ldi => ['L', 'D', 'I']
  | .prn => ['P', 'R', 'N']
  | .add => ['A', 'D', 'D']
  | .mul => ['M', 'U', 'L']
  | .push => ['P', 'U', 'S', 'H']
  | .pop => ['P', 'O', 'P']
  | .call => ['C', 'A', 'L', 'L']
  | .ret => ['R', 'E', 'T']

/-- A register operand's spelling, ` r0` to ` r7`, with the space before it; a byte 8..255 has none (R89, D17). -/
def registerText (b : Byte) : Option (List Char) :=
  if b.toNat < Config.nReg then some (' ' :: 'r' :: decimalText b.toNat) else none

/-- The text of an opcode with register operands. -/
def registerForm (op : Opcode) (operands : List Byte) : Option (List Char) :=
  (operands.mapM registerText).map fun texts => op.mnemonic ++ texts.flatten

/-- The assembly spelling of an instruction, where it has one (R89, D17): the mnemonic and its operands separated by
spaces, LDI's value in decimal. -/
def assemblyText : Instr → Option (List Char)
  | .hlt => registerForm .hlt []
  | .ldi a b => (registerForm .ldi [a]).map fun text => text ++ ' ' :: decimalText b.toNat
  | .prn a => registerForm .prn [a]
  | .add a b => registerForm .add [a, b]
  | .mul a b => registerForm .mul [a, b]
  | .push a => registerForm .push [a]
  | .pop a => registerForm .pop [a]
  | .call a => registerForm .call [a]
  | .ret => registerForm .ret []

end Sys2Proof
end

