-- ==== Sys2Proof/Machine/Fetch.lean ====
section
/-!
DEFINITION. Fetch, decode and operand fetch (40_cycle.md R111, R112, R113), and placing an instruction where the next
fetch reads it.
-/

namespace Sys2Proof.Machine

/-- Read the operand bytes the width calls for, `pc+1` before `pc+2`, into `opa` and `opb` (40_cycle.md R112). -/
def fetchOperands (op : Opcode) (s : State) : Except FaultCause State :=
  if op.operandCount = 0 then .ok s
  else
    match memRead .operand (s.pc + 1) s with
    | .error cause => .error cause
    | .ok (a, sa) =>
      if op.operandCount = 1 then .ok (sa.latchOpa a)
      else
        match memRead .operand (s.pc + 2) (sa.latchOpa a) with
        | .error cause => .error cause
        | .ok (b, sb) => .ok (sb.latchOpb b)

/-- Fetch the opcode byte, decode it, fetch its operands (40_cycle.md R111, R112): the instruction with its latched
operands (R113) and the state after the fetch, or the cause of the first check that fails (60_exceptions.md R217). -/
def fetchInstr (s : State) : Except FaultCause (Instr × State) :=
  match memRead .fetch s.pc s with
  | .error cause => .error cause
  | .ok (ir, s1) =>
    match decodeOpcode ir with
    | none => .error (.unknownInstruction ir)
    | some op =>
      match fetchOperands op (s1.latchIr ir) with
      | .error cause => .error cause
      | .ok s2 => .ok (op.instr s2.hidden.opa s2.hidden.opb, s2)

/-- The width of the instruction that bytes begin with; 1 where the first byte is no opcode. -/
def leadingWidth : List Byte → Nat
  | [] => 1
  | ir :: _ =>
    match decodeOpcode ir with
    | none => 1
    | some op => op.width

/-- Where an instruction of this width can be fetched: at `pc` if all its bytes lie in memory, else at 0. -/
def placementAddress (s : State) (width : Nat) : Nat :=
  if s.pc + width ≤ Config.memSize then s.pc else 0

/-- Store bytes where the next step fetches its instruction, in a state that takes a step; bytes past the end of memory
are left out. Only a state whose `pc` leaves the instruction no room has its `pc` moved, and only a state that is not
RUNNING its run state and fault record (log entry 1). -/
def placeInstr (bytes : List Byte) (s : State) : State :=
  let base := placementAddress s (leadingWidth bytes)
  { s with
    pc := base
    mem := (Memory.writeBytes (bytes.take (Config.memSize - base)) base s.mem).getD s.mem
    runState := .running
    fault := if s.runState = .running then s.fault else none }

end Sys2Proof.Machine
end

