-- ==== Sys2Proof/Machine/Step.lean ====
section
/-!
DEFINITION. One step of the engine (40_cycle.md R117), and the placing of a table word where it fetches.
-/

namespace Sys2Proof.Machine

/-- One whole fetch-decode-execute (40_cycle.md R117). The engine steps only in RUNNING (R110). A fault in fetch or
decode leaves the state as it was before the step but for `state` and `fault` (R116, 60_exceptions.md R213). -/
def step (s : State) : Host.Outcome State Fault Refusal :=
  match s.runState with
  | .halted => .fault .engineHalted
  | .faulted => .fault .engineFaulted
  | .running =>
    match fetchInstr s with
    | .error cause => .next (raise cause s)
    | .ok (i, s') => exec i s'

/-- The state with a table word stored where the next step fetches it (log entry 1). -/
def State.withFetchWord (s : State) (nbits w : Nat) : State := placeInstr (wordBytes nbits w) s

end Sys2Proof.Machine
end

