-- ==== Sys2Proof/Machine/Ports.lean ====
section
/-!
DEFINITION. The CORE's ports to the outside (10_state.md R40): the load port, the status port with its codes and exit
statuses, the output sink's text, and what a trace may show.
-/

namespace Sys2Proof.Machine

/-! ### The load port (70_reset_and_hazards.md R243, R244) -/

/-- Why no CORE runs after a load (60_exceptions.md R216). -/
inductive LoadFailure where
  /-- ProgramLoadFailure: the image is missing or unreadable. -/
  | programUnavailable
  /-- The image has more than 256 bytes and the memory contract refuses a write (D11). -/
  | imageTooLong
  deriving DecidableEq, Repr

/-- Load an image into a CORE just reset: its bytes at consecutive addresses from 0, nothing else written (R243).
`none` is an image that is missing or unreadable (R216). -/
def load : Option (List Byte) → Except LoadFailure State
  | none => .error .programUnavailable
  | some image =>
    match Memory.writeBytes image 0 State.reset.mem with
    | none => .error .imageTooLong
    | some m => .ok { State.reset with mem := m }

/-! ### The status port (60_exceptions.md R214, R222) -/

/-- The numeric code of an OutOfBounds class (R214). -/
def AccessClass.code : AccessClass → Nat
  | .fetch => 0
  | .operand => 1
  | .reg => 2

/-- The numeric code of the fault kind (R214). -/
def kindCode : Option FaultRecord → Nat
  | none => 0
  | some record =>
    match record.cause with
    | .unknownInstruction _ => 1
    | .outOfBounds _ _ => 2
    | .unsupportedOperation _ => 3

/-- The exit status of a run that ends in this state (R222); `none` for a state in which no run has ended. -/
def exitStatus (s : State) : Option Int :=
  match s.runState with
  | .running => none
  | .halted => some 0
  | .faulted =>
    match kindCode s.fault with
    | 0 => none
    | 1 => some 1
    | _ => some Config.oobExitStatus

/-- The exit status after a load that leaves no CORE to run: 2 for ProgramLoadFailure (R216, R222); open for an image
that is too long (log entry 12). -/
def LoadFailure.exitStatus : LoadFailure → Int
  | .programUnavailable => 2
  | .imageTooLong => Config.oversizeExitStatus

/-! ### The output sink (41_hlt_ldi_prn.md R137) -/

/-- The text the sink writes: for each value its unsigned decimal and the line terminator (R137). -/
def sinkText (out : List Byte) : List Char :=
  out.flatMap fun v => decimalText v.toNat ++ Config.lineTerminator

/-! ### The optional trace (60_exceptions.md R232) -/

/-- What a trace shows: `pc`, the bytes at `pc`, `pc+1` and `pc+2` (absent at 256 and above) and the registers. It is a
view: it changes nothing and never faults (R232, D15, log entry 19). -/
def traceView (s : State) : Nat × List (Option Byte) × List Byte :=
  (s.pc, [s.mem.readChecked s.pc, s.mem.readChecked (s.pc + 1), s.mem.readChecked (s.pc + 2)], s.regs.toList)

end Sys2Proof.Machine
end

