-- ==== Sys2Proof/Machine/Run.lean ====
section
/-!
DEFINITION. Runs (40_cycle.md R119, R120): the engine repeats its step while `state` is RUNNING. A run may be infinite,
so the runner is given a number of steps.
-/

namespace Sys2Proof.Machine

/-- The run has ended: `state` is HALTED or FAULTED (40_cycle.md R120). -/
def State.ended (s : State) : Bool := decide (s.runState ≠ .running)

/-- The state after at most `k` steps: the run stops at the first state that is HALTED or FAULTED (40_cycle.md R110,
R120). -/
def runFor : Nat → State → State
  | 0, s => s
  | k + 1, s =>
    match step s with
    | .next t => runFor k t
    | .fault _ => s
    | .refused _ => s

end Sys2Proof.Machine
end

