-- ==== Sys2Proof/WellFormed.lean ====
section
/-!
DEFINITION. Which instructions are well formed: those whose every register operand names a register (10_state.md R22),
which are the ones assembly can spell (30_encoding.md R89). An ill-formed instruction still has an encoding, decodes
and executes: it raises OutOfBounds(REG) (30_encoding.md R86).
-/

namespace Sys2Proof

/-- An operand byte names a register: it is in 0..7 (10_state.md R22). -/
def namesRegister (b : Byte) : Bool := decide (b.toNat < Config.nReg)

/-- The operand bytes an instruction uses as register indices, in the order they are checked (30_encoding.md R81,
40_cycle.md R114). LDI's `b` is a value, not an index. -/
def Instr.registerOperands : Instr → List Byte
  | .hlt => []
  | .ldi a _ => [a]
  | .prn a => [a]
  | .add a b => [a, b]
  | .mul a b => [a, b]
  | .push a => [a]
  | .pop a => [a]
  | .call a => [a]
  | .ret => []

/-- Every register operand names a register. -/
def Instr.wellFormed (i : Instr) : Bool := i.registerOperands.all namesRegister

end Sys2Proof
end

