-- ==== Sys2Proof/Safety.lean ====
section
/-!
DEFINITION. The terms the claims use: what two states share, and the invariant of a legal state.
-/

namespace Sys2Proof.Machine

/-- Every byte of memory reads the same. -/
def SameMemory (s t : State) : Prop := ∀ a : Nat, t.mem.read a = s.mem.read a

/-- Every byte of memory outside cell `stored` reads the same. -/
def SameMemoryBut (stored : Nat) (s t : State) : Prop := ∀ a : Nat, a ≠ stored → t.mem.read a = s.mem.read a

/-- Every register reads the same but those whose numbers are listed. -/
def SameRegistersBut (written : List Nat) (s t : State) : Prop :=
  ∀ r : RegIndex, r.val ∉ written → t.reg r = s.reg r

/-- Every register reads the same. -/
def SameRegisters (s t : State) : Prop := ∀ r : RegIndex, t.reg r = s.reg r

/-- Run state and fault record are the same. -/
def SameStatus (s t : State) : Prop := t.runState = s.runState ∧ t.fault = s.fault

/-- The instruction register and the operand latches are the same. -/
def SameLatches (s t : State) : Prop :=
  t.hidden.ir = s.hidden.ir ∧ t.hidden.opa = s.hidden.opa ∧ t.hidden.opb = s.hidden.opb

/-- The architectural state of 10_state.md R39 is the same; the hidden registers of R35 may differ. -/
def SameArchitecture (s t : State) : Prop :=
  t.regs = s.regs ∧ t.pc = s.pc ∧ t.mem = s.mem ∧ t.runState = s.runState ∧ t.fault = s.fault ∧ t.out = s.out

/-- The same outcome of a step as far as the architectural state shows it. -/
def SameOutcome (o p : Host.Outcome State Fault Refusal) : Prop :=
  (∃ s t, o = .next s ∧ p = .next t ∧ SameArchitecture s t) ∨
  (∃ f, o = .fault f ∧ p = .fault f) ∨
  (∃ r, o = .refused r ∧ p = .refused r)

/-- What a completed fetch of an instruction of this opcode leaves: the same architectural state, with `ir` and the
operand latches its width calls for loaded (40_cycle.md R111, R112); MAR and MDR show the last byte fetched, and a latch
the width does not call for keeps its value (log entry 4). -/
def afterFetch (s : State) (op : Opcode) : State :=
  { s with
    hidden :=
      { ir := s.mem.read s.pc
        opa := if op.operandCount = 0 then s.hidden.opa else s.mem.read (s.pc + 1)
        opb := if op.operandCount = 2 then s.mem.read (s.pc + 2) else s.hidden.opb
        mar := BitVec.ofNat 8 (s.pc + op.operandCount)
        mdr := s.mem.read (s.pc + op.operandCount) } }

/-- The bytes at `pc`, `pc+1` and `pc+2` that lie in memory. -/
def codeBytes (s : State) : List Byte :=
  ([s.pc, s.pc + 1, s.pc + 2].filter fun a => decide (a < 256)).map s.mem.read

/-- The fault record explains the state it stands in: what a fault of that cause must have found, and `fpc` is the `pc`
the state still has (60_exceptions.md R212, R213, R215; 42_alu.md R156). -/
def State.faultExplained (s : State) (record : FaultRecord) : Prop :=
  record.fpc = s.pc ∧
  match record.cause with
  | .unknownInstruction ir => s.pc < 256 ∧ s.mem.read s.pc = ir ∧ decodeOpcode ir = none
  | .outOfBounds .fetch value => value = 256 ∧ s.pc = 256
  | .outOfBounds .operand value =>
      value = 256 ∧ ∃ op, decodeOpcode (s.mem.read s.pc) = some op ∧ s.pc < 256 ∧ 256 < s.pc + op.width
  | .outOfBounds .reg value =>
      8 ≤ value ∧ s.pc < 255 ∧ (value = (s.mem.read (s.pc + 1)).toNat ∨ value = (s.mem.read (s.pc + 2)).toNat)
  | .unsupportedOperation _ => False

/-- A legal state: memory is in its canonical form, `pc` is at most 256 (10_state.md R26), and there is a fault record
exactly when the state is FAULTED (10_state.md R31), which then explains the state. -/
def State.Legal (s : State) : Prop :=
  s.mem.wf = true ∧ s.pc ≤ 256 ∧ (s.fault = none ↔ s.runState ≠ .faulted) ∧
  ∀ record, s.fault = some record → s.faultExplained record

end Sys2Proof.Machine
end

