-- ==== Sys2Proof/Certificates/Slice0/Obligations.lean ====
section
/-!
DEFINITION. The statements for the provers. Each docstring names the rule of spec/ it formalises. Where a clause rests on
a decision of spec/92_eei_decisions.md, on an inference the spec marks as its own, or on a choice of the model, the
docstring says so.
-/

open Sys2Proof Sys2Proof.Machine

/-! ### Encoding and decoding -/

/-- 30_encoding.md R82: the nine opcodes with their bytes, widths and operands. -/
def Obligations.OpcodeMapIsTheTable : Prop :=
  (∀ (ir : Byte) (op : Opcode) (width : Nat),
    (decodeOpcode ir = some op ∧ op.width = width) ↔
      (ir, op, width) ∈
        [(0x01#8, Opcode.hlt, 1), (0x82#8, .ldi, 3), (0x47#8, .prn, 2), (0xA0#8, .add, 3), (0xA2#8, .mul, 3),
         (0x45#8, .push, 2), (0x46#8, .pop, 2), (0x50#8, .call, 2), (0x11#8, .ret, 1)]) ∧
  ∀ a b : Byte,
    encode .hlt = [0x01#8] ∧ encode (.ldi a b) = [0x82#8, a, b] ∧ encode (.prn a) = [0x47#8, a] ∧
    encode (.add a b) = [0xA0#8, a, b] ∧ encode (.mul a b) = [0xA2#8, a, b] ∧ encode (.push a) = [0x45#8, a] ∧
    encode (.pop a) = [0x46#8, a] ∧ encode (.call a) = [0x50#8, a] ∧ encode .ret = [0x11#8]

/-- 30_encoding.md R87 (which the spec marks as derived): the illegal opcode bytes are exactly these ranges, and they are
247. -/
def Obligations.IllegalOpcodeBytes : Prop :=
  (∀ ir : Byte, decodeOpcode ir = none ↔
    ir.toNat = 0x00 ∨ (0x02 ≤ ir.toNat ∧ ir.toNat ≤ 0x10) ∨ (0x12 ≤ ir.toNat ∧ ir.toNat ≤ 0x44) ∨
    (0x48 ≤ ir.toNat ∧ ir.toNat ≤ 0x4F) ∨ (0x51 ≤ ir.toNat ∧ ir.toNat ≤ 0x81) ∨
    (0x83 ≤ ir.toNat ∧ ir.toNat ≤ 0x9F) ∨ ir.toNat = 0xA1 ∨ 0xA3 ≤ ir.toNat) ∧
  ((List.range 256).filter fun n => (decodeOpcode (BitVec.ofNat 8 n)).isNone).length = 247

/-- 30_encoding.md R84 (which the spec marks as derived): for every opcode, bits 7..6 are the operand count and the width
less one, bit 5 marks ADD and MUL, bit 4 marks CALL and RET. -/
def Obligations.OpcodeBitsGiveWidthAndClass : Prop :=
  ∀ op : Opcode,
    (op.byte.extractLsb' 6 2).toNat = op.operandCount ∧ op.width = (op.byte.extractLsb' 6 2).toNat + 1 ∧
    (op.byte.getLsbD 5 = true ↔ op = .add ∨ op = .mul) ∧ (op.byte.getLsbD 4 = true ↔ op = .call ∨ op = .ret)

/-- 30_encoding.md R92 (which the spec marks as derived): the encoding examples decode to the instructions they stand
for, with the bytes after them left over. -/
def Obligations.EncodingExamplesDecode : Prop :=
  decode [0x82#8, 0x00#8, 0x08#8] = .ok (.ldi 0 8, []) ∧ decode [0xA2#8, 0x00#8, 0x01#8] = .ok (.mul 0 1, []) ∧
  decode [0x47#8, 0x00#8, 0x01#8] = .ok (.prn 0, [0x01#8]) ∧ decode [0x45#8, 0x00#8] = .ok (.push 0, []) ∧
  decode [0x46#8, 0x01#8] = .ok (.pop 1, []) ∧ decode [0x50#8, 0x01#8] = .ok (.call 1, []) ∧
  decode [0x01#8] = .ok (.hlt, []) ∧ decode [0x11#8, 0x82#8] = .ok (.ret, [0x82#8])

/-- Decode and encode agree in both directions (30_encoding.md R80, R82, R83, R85): a list of bytes decodes to an
instruction and a rest exactly when it is the instruction's encoding followed by that rest. It covers every operand byte,
register bytes 8..255 among them (R86). -/
def Obligations.DecodeInvertsEncode : Prop :=
  ∀ (bytes : List Byte) (i : Instr) (rest : List Byte), decode bytes = .ok (i, rest) ↔ bytes = encode i ++ rest

/-- An instruction's bytes laid out as spec/opcode_table.json numbers a word (the first byte least significant) are read
back as that instruction, whatever stands above the instruction's own bits (30_encoding.md R56 order, R80, R82). -/
def Obligations.TableWordsDecode : Prop :=
  ∀ (i : Instr) (above : Nat),
    decodeTableWord (8 * i.opcode.width)
      ((encode i).foldr (fun b w => b.toNat + 256 * w) 0 + 2 ^ (8 * i.opcode.width) * above) = some i

/-- 30_encoding.md R89 with D17: exactly the instructions whose register operands are r0..r7 have an assembly spelling,
and no two instructions share one. -/
def Obligations.AssemblySpellingIsUnambiguous : Prop :=
  (∀ i : Instr, (assemblyText i).isSome = true ↔ i.wellFormed = true) ∧
  ∀ (i j : Instr) (text : List Char), assemblyText i = some text → assemblyText j = some text → i = j

/-! ### State and memory -/

/-- 10_state.md R25 and R39: the reset value of the architectural state. -/
def Obligations.ResetState : Prop :=
  (∀ r : RegIndex, (State.reset.reg r).toNat = if r = 7 then 0xF4 else 0) ∧ State.reset.pc = 0 ∧
  (∀ a : Nat, State.reset.mem.read a = 0) ∧ State.reset.runState = .running ∧ State.reset.fault = none ∧
  State.reset.out = []

/-- The reset state is legal (10_state.md R26, R31, R39; the canonical form of memory is the model's). -/
def Obligations.ResetIsLegal : Prop := State.reset.Legal

/-- Every step keeps the state legal: memory canonical, `pc` at most 256 (10_state.md R26), a fault record exactly in
FAULTED (R31) and explaining the state it stands in (60_exceptions.md R212, R213). It rests on the spec's decisions D5,
D6 and D7. -/
def Obligations.StepKeepsLegal : Prop := ∀ s t : State, s.Legal → step s = .next t → t.Legal

/-- 10_state.md R22: `RegIndex(b)`. -/
def Obligations.RegisterIndexCheck : Prop :=
  ∀ b : Byte,
    (8 ≤ b.toNat → regIndex b = .error (.outOfBounds .reg b.toNat)) ∧
    (b.toNat < 8 → ∃ r : RegIndex, regIndex b = .ok r ∧ r.val = b.toNat)

/-- 20_memory.md R52: the two access primitives, on every state and address. A read moves nothing architectural; a write
stores the value modulo 256 in the one cell. -/
def Obligations.MemoryContract : Prop :=
  ∀ (cls : AccessClass) (a v : Nat) (s : State),
    (256 ≤ a → memRead cls a s = .error (.outOfBounds cls a) ∧ memWrite cls a v s = .error (.outOfBounds cls a)) ∧
    (a < 256 →
      (∃ t, memRead cls a s = .ok (s.mem.read a, t) ∧ SameArchitecture s t) ∧
      ∃ t, memWrite cls a v s = .ok t ∧ (t.mem.read a).toNat = v % 256 ∧ SameMemoryBut a s t ∧ t.regs = s.regs ∧
        t.pc = s.pc ∧ SameStatus s t ∧ t.out = s.out)

/-- 20_memory.md R55 (which the spec marks as derived): a stack access is an access of the contract at `x[7]`, and never
fails. -/
def Obligations.StackAccessNeverFails : Prop :=
  ∀ (cls : AccessClass) (v : Byte) (s : State),
    memRead cls (s.reg 7).toNat s = .ok (stackByte s, s.readStack) ∧
    memWrite cls (s.reg 7).toNat v.toNat s = .ok (s.writeStack v)

/-! ### The step -/

/-- 40_cycle.md R110 with D18: the engine steps exactly in RUNNING, where every step answers a next state; in HALTED and
FAULTED it takes none, and a run stays where it is. That the model says so by the interface's `fault` outcome is log
entry 2. -/
def Obligations.EngineStepsExactlyWhenRunning : Prop :=
  ∀ s : State,
    (s.runState = .running → ∃ t, step s = .next t) ∧
    (s.runState = .halted → step s = .fault .engineHalted) ∧
    (s.runState = .faulted → step s = .fault .engineFaulted) ∧
    (s.runState ≠ .running → ∀ k, runFor k s = s)

/-- 40_cycle.md R120 (a run ends at the first HALTED or FAULTED state): a run of any length that has ended has ended in
the same state. It rests on D18. -/
def Obligations.RunHasOneEnd : Prop :=
  ∀ (j k : Nat) (s : State), (runFor j s).ended = true → (runFor k s).ended = true → runFor j s = runFor k s

/-- 40_cycle.md R111: the opcode fetch. -/
def Obligations.OpcodeFetch : Prop :=
  ∀ s : State, s.runState = .running →
    (256 ≤ s.pc → step s = .next (raise (.outOfBounds .fetch s.pc) s)) ∧
    (s.pc < 256 → ∀ i t, fetchInstr s = .ok (i, t) → t.hidden.ir = s.mem.read s.pc)

/-- 30_encoding.md R83: the literal match of the whole opcode byte, and UnknownInstruction for every other byte. The
operand bytes play no part: the condition reads the byte at `pc` alone. -/
def Obligations.UnknownOpcodeRaises : Prop :=
  ∀ s : State, s.runState = .running → s.pc < 256 →
    ((∀ op : Opcode, s.mem.read s.pc ≠ op.byte) →
      step s = .next (raise (.unknownInstruction (s.mem.read s.pc)) s)) ∧
    (∀ (op : Opcode) (i : Instr) (t : State), s.mem.read s.pc = op.byte → fetchInstr s = .ok (i, t) → i.opcode = op)

/-- 60_exceptions.md R217 with D10, D2 and D5: at most one fault a step, the first check that fails in the order opcode
fetch, opcode match, operand fetch, register operands (`a` before `b`); and a step all of whose checks pass does not
fault. The state a register-operand fault stands in is the one the fetch left, which differs in hidden registers only. -/
def Obligations.FaultPriority : Prop :=
  ∀ s : State, s.runState = .running →
    (256 ≤ s.pc → step s = .next (raise (.outOfBounds .fetch s.pc) s)) ∧
    (s.pc < 256 →
      (decodeOpcode (s.mem.read s.pc) = none → step s = .next (raise (.unknownInstruction (s.mem.read s.pc)) s)) ∧
      ∀ op : Opcode, decodeOpcode (s.mem.read s.pc) = some op →
        (256 < s.pc + op.width → step s = .next (raise (.outOfBounds .operand 256) s)) ∧
        (s.pc + op.width ≤ 256 →
          let i := op.instr (s.mem.read (s.pc + 1)) (s.mem.read (s.pc + 2))
          (∀ v : Byte, i.registerOperands.find? (fun b => !namesRegister b) = some v →
            step s = .next (raise (.outOfBounds .reg v.toNat) (afterFetch s op))) ∧
          (i.wellFormed = true → ∃ t, step s = .next t ∧ t.runState ≠ .faulted ∧ t.fault = s.fault)))

/-- A step runs the decoded instruction (40_cycle.md R112, R113, R117): when the bytes at `pc` decode to `i`, the step is
`exec i` from the state the fetch leaves, which is the same state but for the hidden registers that `afterFetch` names.
MAR, MDR and the unused latches in it are the model's choice (log entry 4). It holds for ill-formed instructions too. -/
def Obligations.StepRunsDecodedInstruction : Prop :=
  ∀ (s : State) (i : Instr) (rest : List Byte), s.runState = .running → decode (codeBytes s) = .ok (i, rest) →
    step s = exec i (afterFetch s i.opcode) ∧ SameArchitecture s (afterFetch s i.opcode)

/-- 40_cycle.md R116 with D5: a step completes, without touching the fault record and staying in RUNNING or, for HLT
alone, becoming HALTED; or it faults, and then registers, memory, `pc` and `out` are as they were. -/
def Obligations.StepIsAllOrNothing : Prop :=
  ∀ s t : State, step s = .next t →
    (t.fault = s.fault ∧
      ((t.runState = .running ∧ s.mem.read s.pc ≠ 0x01#8) ∨ (t.runState = .halted ∧ s.mem.read s.pc = 0x01#8))) ∨
    (t.runState = .faulted ∧ (∃ cause, t.fault = some { cause := cause, fpc := s.pc }) ∧ t.regs = s.regs ∧
      t.mem = s.mem ∧ t.pc = s.pc ∧ t.out = s.out)

/-- 60_exceptions.md R213 with D5: `raise E(info)` writes the run state and the fault record and nothing else. -/
def Obligations.RaiseWritesStatusOnly : Prop :=
  ∀ (cause : FaultCause) (s : State),
    (raise cause s).runState = .faulted ∧ (raise cause s).fault = some { cause := cause, fpc := s.pc } ∧
    (raise cause s).regs = s.regs ∧ (raise cause s).mem = s.mem ∧ (raise cause s).pc = s.pc ∧
    (raise cause s).out = s.out ∧ (raise cause s).hidden = s.hidden

/-- 42_alu.md R156 (which the spec marks as derived): no program makes the ALU raise UnsupportedOperation, which it
raises for every operation outside ADD and MUL. -/
def Obligations.UnsupportedOperationUnreachable : Prop :=
  (∀ (slot a b : Byte), aluResult (.unimplemented slot) a b = .error (.unsupportedOperation (.unimplemented slot))) ∧
  ∀ s t : State, step s = .next t → t.fault ≠ s.fault →
    ∃ record, t.fault = some record ∧ ∀ op, record.cause ≠ .unsupportedOperation op

/-- 10_state.md R35 with D14: the hidden registers are never observed. Two states that differ in them only have steps
that differ in them only. -/
def Obligations.HiddenRegistersAreUnobservable : Prop :=
  ∀ s t : State, SameArchitecture s t → SameOutcome (step s) (step t)

/-- 10_state.md R33: `out` starts empty, grows by one value per executed PRN, is otherwise unchanged, and is never read:
the same step from another output sequence does the same and appends the same. -/
def Obligations.OutputIsAppendOnly : Prop :=
  State.reset.out = [] ∧
  ∀ s t : State, step s = .next t →
    ((t.runState ≠ .faulted ∧ s.mem.read s.pc = 0x47#8 ∧
        ∃ r : RegIndex, r.val = (s.mem.read (s.pc + 1)).toNat ∧ t.out = s.out ++ [s.reg r]) ∨
      ((t.runState = .faulted ∨ s.mem.read s.pc ≠ 0x47#8) ∧ t.out = s.out)) ∧
    ∀ out : List Byte, step { s with out := out } = .next { t with out := out ++ t.out.drop s.out.length }

/-- 40_cycle.md R115: the program counter after every instruction that completes without a fault. For CALL through r7 the
value its execute phase writes is `CallResult`'s (D4). -/
def Obligations.ProgramCounterUpdate : Prop :=
  ∀ (i : Instr) (s t : State), i.wellFormed = true → exec i s = .next t →
    match i with
    | .hlt => t.pc = s.pc + 1
    | .ldi _ _ => t.pc = s.pc + 3
    | .prn _ => t.pc = s.pc + 2
    | .add _ _ => t.pc = s.pc + 3
    | .mul _ _ => t.pc = s.pc + 3
    | .push _ => t.pc = s.pc + 2
    | .pop _ => t.pc = s.pc + 2
    | .call a => a ≠ 7#8 → ∃ r : RegIndex, r.val = a.toNat ∧ t.pc = (s.reg r).toNat
    | .ret => t.pc = (s.mem.read (s.reg 7).toNat).toNat

/-- 40_cycle.md R114 and 30_encoding.md R86 with D5 and D10: an instruction with a register operand of 8 or more raises
OutOfBounds(REG) with the first such byte and writes nothing. -/
def Obligations.BadRegisterOperandRaises : Prop :=
  ∀ (i : Instr) (s : State) (v : Byte), i.registerOperands.find? (fun b => !namesRegister b) = some v →
    8 ≤ v.toNat ∧ exec i s = .next (raise (.outOfBounds .reg v.toNat) s)

/-! ### HLT, LDI, PRN -/

/-- HLT completes in every state: HALTED, `pc + 1`, everything else unchanged (41_hlt_ldi_prn.md HLT; the value of `pc`
after HLT is defined but unobservable, I12). -/
def Obligations.HltResult : Prop :=
  ∀ s : State, ∃ t, exec .hlt s = .next t ∧ t.runState = .halted ∧ t.pc = s.pc + 1 ∧ t.fault = s.fault ∧
    SameRegisters s t ∧ SameMemory s t ∧ t.out = s.out ∧ t.hidden = s.hidden

/-- 41_hlt_ldi_prn.md R131 and R130 with D2 and D18: a HLT anywhere in memory, at 255 too, is the normal end: exit status
0, and no further step. -/
def Obligations.HltEndsTheRun : Prop :=
  ∀ s : State, s.runState = .running → s.pc < 256 → s.mem.read s.pc = 0x01#8 →
    ∃ t, step s = .next t ∧ t.runState = .halted ∧ t.pc = s.pc + 1 ∧ exitStatus t = some 0 ∧
      step t = .fault .engineHalted

/-- LDI completes for every register operand and value (41_hlt_ldi_prn.md R133). -/
def Obligations.LdiResult : Prop :=
  ∀ (a b : Byte) (s : State) (ha : a.toNat < 8), ∃ t, exec (.ldi a b) s = .next t ∧
    t.reg ⟨a.toNat, ha⟩ = b ∧ t.pc = s.pc + 3

/-- 41_hlt_ldi_prn.md R133: LDI from its bytes in memory, its operand fetch and register check included. -/
def Obligations.LdiStep : Prop :=
  ∀ s : State, s.runState = .running → s.pc < 256 → s.mem.read s.pc = 0x82#8 →
    (254 ≤ s.pc → step s = .next (raise (.outOfBounds .operand 256) s)) ∧
    (s.pc ≤ 253 →
      (8 ≤ (s.mem.read (s.pc + 1)).toNat →
        ∃ t, step s = .next t ∧ SameArchitecture (raise (.outOfBounds .reg (s.mem.read (s.pc + 1)).toNat) s) t) ∧
      ∀ ha : (s.mem.read (s.pc + 1)).toNat < 8, ∃ t, step s = .next t ∧
        t.reg ⟨(s.mem.read (s.pc + 1)).toNat, ha⟩ = s.mem.read (s.pc + 2) ∧ t.pc = s.pc + 3 ∧
        SameRegistersBut [(s.mem.read (s.pc + 1)).toNat] s t ∧ SameMemory s t ∧ SameStatus s t ∧ t.out = s.out)

/-- PRN completes for every register operand: one 8-bit value appended to `out`, every register (the one printed among
them), memory and status unchanged, `pc + 2` (41_hlt_ldi_prn.md PRN; that the sink always accepts is D12). -/
def Obligations.PrnResult : Prop :=
  ∀ (a : Byte) (s : State) (ha : a.toNat < 8), ∃ t, exec (.prn a) s = .next t ∧
    t.out = s.out ++ [s.reg ⟨a.toNat, ha⟩] ∧ t.pc = s.pc + 2 ∧ SameRegisters s t ∧ SameMemory s t ∧ SameStatus s t

/-- 41_hlt_ldi_prn.md R137 (whose decimal sentence the spec marks as derived): the sink's text of a run's output is, value
by value, the value in decimal digits without sign or leading zeros, then the open LINE_TERMINATOR, whatever that is. -/
def Obligations.SinkTextIsDecimal : Prop :=
  sinkText [] = [] ∧
  ∀ (v : Byte) (out : List Byte), ∃ digits : List Char,
    sinkText (out ++ [v]) = sinkText out ++ digits ++ Config.lineTerminator ∧
    digits.all Char.isDigit = true ∧ (digits.head? = some '0' → digits = ['0']) ∧
    digits.foldl (fun n c => 10 * n + (c.toNat - 48)) 0 = v.toNat ∧ digits ≠ []

/-! ### ADD, MUL -/

/-- 42_alu.md R151: the arithmetic laws of the ALU. -/
def Obligations.AluArithmetic : Prop :=
  ∀ a b : Byte,
    (∃ v, aluResult .add a b = .ok v ∧ v.toNat = (a.toNat + b.toNat) % 256) ∧
    (∃ v, aluResult .mul a b = .ok v ∧ v.toNat = (a.toNat * b.toNat) % 256)

/-- ADD and MUL complete for every pair of register operands, equal ones too; a second register that differs from the
destination is unchanged (42_alu.md R150, R152, R154, conflict C3). -/
def Obligations.AluResult : Prop :=
  ∀ (a b : Byte) (s : State) (ha : a.toNat < 8) (hb : b.toNat < 8),
    (∃ t, exec (.add a b) s = .next t ∧
      (t.reg ⟨a.toNat, ha⟩).toNat = ((s.reg ⟨a.toNat, ha⟩).toNat + (s.reg ⟨b.toNat, hb⟩).toNat) % 256 ∧
      (a ≠ b → t.reg ⟨b.toNat, hb⟩ = s.reg ⟨b.toNat, hb⟩) ∧ t.pc = s.pc + 3) ∧
    (∃ t, exec (.mul a b) s = .next t ∧
      (t.reg ⟨a.toNat, ha⟩).toNat = ((s.reg ⟨a.toNat, ha⟩).toNat * (s.reg ⟨b.toNat, hb⟩).toNat) % 256 ∧
      (a ≠ b → t.reg ⟨b.toNat, hb⟩ = s.reg ⟨b.toNat, hb⟩) ∧ t.pc = s.pc + 3)

/-- 42_alu.md R152 and R154: ADD and MUL from their bytes in memory, operand fetch and both register checks included,
`a` checked first. -/
def Obligations.AddMulStep : Prop :=
  ∀ (code : Byte) (f : Nat → Nat → Nat) (s : State),
    (code = 0xA0#8 ∧ f = fun x y => x + y) ∨ (code = 0xA2#8 ∧ f = fun x y => x * y) →
    s.runState = .running → s.pc < 256 → s.mem.read s.pc = code →
    (254 ≤ s.pc → step s = .next (raise (.outOfBounds .operand 256) s)) ∧
    (s.pc ≤ 253 →
      (8 ≤ (s.mem.read (s.pc + 1)).toNat →
        ∃ t, step s = .next t ∧ SameArchitecture (raise (.outOfBounds .reg (s.mem.read (s.pc + 1)).toNat) s) t) ∧
      ((s.mem.read (s.pc + 1)).toNat < 8 → 8 ≤ (s.mem.read (s.pc + 2)).toNat →
        ∃ t, step s = .next t ∧ SameArchitecture (raise (.outOfBounds .reg (s.mem.read (s.pc + 2)).toNat) s) t) ∧
      ∀ (ha : (s.mem.read (s.pc + 1)).toNat < 8) (hb : (s.mem.read (s.pc + 2)).toNat < 8), ∃ t, step s = .next t ∧
        (t.reg ⟨(s.mem.read (s.pc + 1)).toNat, ha⟩).toNat =
          f (s.reg ⟨(s.mem.read (s.pc + 1)).toNat, ha⟩).toNat (s.reg ⟨(s.mem.read (s.pc + 2)).toNat, hb⟩).toNat % 256 ∧
        t.pc = s.pc + 3 ∧ SameRegistersBut [(s.mem.read (s.pc + 1)).toNat] s t ∧ SameMemory s t ∧ SameStatus s t ∧
        t.out = s.out)

/-! ### PUSH, POP -/

/-- PUSH completes for every register operand. The stack pointer goes down by one modulo 256, and the cell it then
names holds `x[a]` read after the decrement, so `PUSH r7` stores the decremented pointer (43_stack.md PUSH; the order
is the spec's decision D4). -/
def Obligations.PushResult : Prop :=
  ∀ (a : Byte) (s : State) (ha : a.toNat < 8), ∃ t, exec (.push a) s = .next t ∧
    (t.reg 7).toNat = ((s.reg 7).toNat + 255) % 256 ∧ (stackAddress s.decSp) = (t.reg 7).toNat ∧
    t.mem.read (stackAddress s.decSp) = (if a = 7#8 then t.reg 7 else s.reg ⟨a.toNat, ha⟩) ∧ t.pc = s.pc + 2

/-- POP completes for every register operand. `x[a]` gets the byte at the stack pointer, then the pointer goes up by one
modulo 256, so `POP r7` leaves the popped byte plus one (43_stack.md POP; the order is the spec's decision D4). -/
def Obligations.PopResult : Prop :=
  ∀ (a : Byte) (s : State) (ha : a.toNat < 8), ∃ t, exec (.pop a) s = .next t ∧
    (a ≠ 7#8 → t.reg ⟨a.toNat, ha⟩ = s.mem.read (s.reg 7).toNat ∧ (t.reg 7).toNat = ((s.reg 7).toNat + 1) % 256) ∧
    (a = 7#8 → (t.reg 7).toNat = ((s.mem.read (s.reg 7).toNat).toNat + 1) % 256) ∧ t.pc = s.pc + 2

/-- 43_stack.md R170: the stack pointer starts at 0xF4 and moves by exactly one per stack access, modulo 256: PUSH and
CALL decrement it before their write, so the write lands in the cell it then names; POP and RET increment it after their
read, so they read the cell it named before. POP into register 7 has the pointer as its destination too: that form is
`PopResult`'s second clause (D4). -/
def Obligations.StackPointerMovesByOne : Prop :=
  (State.reset.reg 7).toNat = 0xF4 ∧
  ∀ (a : Byte) (s t : State) (ha : a.toNat < 8),
    (exec (.push a) s = .next t ∨ exec (.call a) s = .next t →
      (t.reg 7).toNat = (if s.reg 7 = 0#8 then 255 else (s.reg 7).toNat - 1) ∧
      SameMemoryBut (t.reg 7).toNat s t) ∧
    (exec (.pop a) s = .next t → a ≠ 7#8 →
      (t.reg 7).toNat = (if s.reg 7 = 255#8 then 0 else (s.reg 7).toNat + 1) ∧
      t.reg ⟨a.toNat, ha⟩ = s.mem.read (s.reg 7).toNat) ∧
    (exec .ret s = .next t →
      (t.reg 7).toNat = (if s.reg 7 = 255#8 then 0 else (s.reg 7).toNat + 1) ∧
      t.pc = (s.mem.read (s.reg 7).toNat).toNat)

/-- 43_stack.md R177 (whose general part the spec marks as derived): PUSH then POP moves the value and restores the stack
pointer, wherever it was; after LDI too. -/
def Obligations.PushPopLaw : Prop :=
  (∀ (p q : Byte) (s : State) (hp : p.toNat < 8) (hq : q.toNat < 8), q ≠ 7#8 →
    ∃ t u, exec (.push p) s = .next t ∧ exec (.pop q) t = .next u ∧ u.reg 7 = s.reg 7 ∧
      (p ≠ 7#8 → u.reg ⟨q.toNat, hq⟩ = s.reg ⟨p.toNat, hp⟩)) ∧
  ∀ (v : Byte) (s : State), ∃ r t u, exec (.ldi 0 v) s = .next r ∧ exec (.push 0) r = .next t ∧
    exec (.pop 1) t = .next u ∧ u.reg 1 = v ∧ u.reg 7 = s.reg 7

/-- 20_memory.md R65 and 70_reset_and_hazards.md R251 with D19: a byte that PUSH stores where the next instruction begins
is the opcode byte the next fetch reads. -/
def Obligations.StoredByteIsFetched : Prop :=
  ∀ (a : Byte) (s t : State) (ha : a.toNat < 8), exec (.push a) s = .next t → t.pc = stackAddress s.decSp →
    ∀ (i : Instr) (u : State), fetchInstr t = .ok (i, u) →
      u.hidden.ir = s.decSp.reg ⟨a.toNat, ha⟩ ∧ i.opcode.byte = s.decSp.reg ⟨a.toNat, ha⟩

/-! ### CALL, RET -/

/-- CALL completes for every register operand. The stack pointer goes down by one modulo 256, the cell it then names
holds `(pc + 2) mod 256`, and `pc` is `x[a]` read after the decrement, so `CALL r7` jumps to the decremented pointer
(44_subroutine.md CALL; the order is the spec's decision D4). -/
def Obligations.CallResult : Prop :=
  ∀ (a : Byte) (s : State) (ha : a.toNat < 8), ∃ t, exec (.call a) s = .next t ∧
    (t.reg 7).toNat = ((s.reg 7).toNat + 255) % 256 ∧ (stackAddress s.decSp) = (t.reg 7).toNat ∧
    (t.mem.read (stackAddress s.decSp)).toNat = (s.pc + 2) % 256 ∧
    t.pc = (if a = 7#8 then t.reg 7 else s.reg ⟨a.toNat, ha⟩).toNat

/-- 44_subroutine.md R191: the return address, at the edge of memory too: CALL at 255 cannot execute, CALL at 254 pushes
0. -/
def Obligations.ReturnAddressPushed : Prop :=
  ∀ s : State, s.runState = .running → s.mem.read s.pc = 0x50#8 → s.pc < 256 →
    (s.pc = 255 → step s = .next (raise (.outOfBounds .operand 256) s)) ∧
    (s.pc ≤ 254 → (s.mem.read (s.pc + 1)).toNat < 8 → ∃ t, step s = .next t ∧
      (t.mem.read (t.reg 7).toNat).toNat = (s.pc + 2) % 256 ∧
      (s.pc ≤ 253 → (t.mem.read (t.reg 7).toNat).toNat = s.pc + 2) ∧
      (s.pc = 254 → t.mem.read (t.reg 7).toNat = 0#8))

/-- 40_cycle.md R113 with D3 (conflict C4): a CALL whose return address lands on its own operand cell still jumps through
the operand it fetched. -/
def Obligations.CallUsesLatchedOperand : Prop :=
  ∀ (s : State) (ha : (s.mem.read (s.pc + 1)).toNat < 8), s.runState = .running → s.mem.read s.pc = 0x50#8 →
    s.pc ≤ 254 → stackAddress s.decSp = s.pc + 1 → ∃ t, step s = .next t ∧
      t.pc = (s.decSp.reg ⟨(s.mem.read (s.pc + 1)).toNat, ha⟩).toNat ∧
      (t.mem.read (s.pc + 1)).toNat = (s.pc + 2) % 256

/-- RET completes in every state: `pc` is the byte at the stack pointer, then the pointer goes up by one modulo 256
(44_subroutine.md RET; popping an empty stack without a fault is D9). That RET writes the pointer is against the row for
RET in R21's table and follows R194 (DEDUCED, log entry 21). -/
def Obligations.RetResult : Prop :=
  ∀ s : State, ∃ t, exec .ret s = .next t ∧ t.pc = (s.mem.read (s.reg 7).toNat).toNat ∧ t.pc < 256 ∧
    (t.reg 7).toNat = ((s.reg 7).toNat + 1) % 256

/-- 44_subroutine.md R195 (whose general part the spec marks as derived): a CALL at 0..253 to a RET comes back to the
instruction after the CALL with the stack pointer restored and the return address left behind. The RET is the byte the
second step fetches. RET's write of the pointer follows R194 (DEDUCED, log entry 21). -/
def Obligations.CallReturnLaw : Prop :=
  ∀ s : State, s.runState = .running → s.pc ≤ 253 → s.mem.read s.pc = 0x50#8 → (s.mem.read (s.pc + 1)).toNat < 8 →
    ∃ t, step s = .next t ∧
      (t.mem.read t.pc = 0x11#8 → ∃ u, step t = .next u ∧ u.pc = s.pc + 2 ∧ u.reg 7 = s.reg 7 ∧
        (u.mem.read (((s.reg 7).toNat + 255) % 256)).toNat = s.pc + 2)

/-! ### Frames: what an instruction leaves unchanged (10_state.md R21, but for its row for RET, log entry 21; R37;
20_memory.md R55) -/

/-- LDI, ADD and MUL change no register but the one `a` names, no byte of memory, no output and no hidden register;
where their register operands name registers they change neither run state nor fault record. -/
def Obligations.RegisterInstructionFrame : Prop :=
  ∀ (a b : Byte) (s t : State),
    (exec (.ldi a b) s = .next t ∨ exec (.add a b) s = .next t ∨ exec (.mul a b) s = .next t →
      SameRegistersBut [a.toNat] s t ∧ SameMemory s t ∧ t.out = s.out ∧ t.hidden = s.hidden) ∧
    (exec (.ldi a b) s = .next t → a.toNat < 8 → SameStatus s t) ∧
    (exec (.add a b) s = .next t ∨ exec (.mul a b) s = .next t → a.toNat < 8 → b.toNat < 8 → SameStatus s t)

/-- HLT and PRN change no register, no byte of memory and no hidden register; HLT changes neither output nor fault
record, and PRN, where its operand names a register, neither run state nor fault record. -/
def Obligations.HltPrnFrame : Prop :=
  ∀ (a : Byte) (s t : State),
    (exec .hlt s = .next t ∨ exec (.prn a) s = .next t → SameRegisters s t ∧ SameMemory s t ∧ t.hidden = s.hidden) ∧
    (exec .hlt s = .next t → t.out = s.out ∧ t.fault = s.fault) ∧
    (exec (.prn a) s = .next t → (a.toNat < 8 → SameStatus s t) ∧ (8 ≤ a.toNat → t.out = s.out))

/-- PUSH and CALL change no register but the stack pointer, no byte of memory but the one at the stack address of the
decremented pointer (none where the operand names no register), no output and no latch of the fetch; where the operand
names a register they change neither run state nor fault record. -/
def Obligations.StoringInstructionFrame : Prop :=
  ∀ (a : Byte) (s t : State), exec (.push a) s = .next t ∨ exec (.call a) s = .next t →
    SameRegistersBut [7] s t ∧ SameMemoryBut (stackAddress s.decSp) s t ∧ t.out = s.out ∧ SameLatches s t ∧
    (a.toNat < 8 → SameStatus s t) ∧ (8 ≤ a.toNat → SameRegisters s t ∧ SameMemory s t)

/-- POP changes no register but the one `a` names and the stack pointer, RET none but the stack pointer; both leave every
byte of memory (the popped one too), the output and the latches of the fetch; RET, and POP where its operand names a
register, change neither run state nor fault record. That RET's frame leaves out the stack pointer is against the row for
RET in R21's table and follows R194 (DEDUCED, log entry 21). -/
def Obligations.PoppingInstructionFrame : Prop :=
  ∀ (a : Byte) (s t : State),
    (exec (.pop a) s = .next t ∨ exec .ret s = .next t → SameMemory s t ∧ t.out = s.out ∧ SameLatches s t) ∧
    (exec (.pop a) s = .next t → SameRegistersBut [a.toNat, 7] s t ∧ (a.toNat < 8 → SameStatus s t) ∧
      (8 ≤ a.toNat → SameRegisters s t)) ∧
    (exec .ret s = .next t → SameRegistersBut [7] s t ∧ SameStatus s t)

/-- Where an instruction's own effect is a single memory access, MAR and MDR show it (10_state.md R35; that they keep it
after the access is the model's choice, log entry 4). -/
def Obligations.AccessRegistersShowStackAccess : Prop :=
  ∀ (a : Byte) (s t : State), a.toNat < 8 →
    (exec (.push a) s = .next t ∨ exec (.call a) s = .next t →
      t.hidden.mar = t.reg 7 ∧ t.hidden.mdr = t.mem.read t.hidden.mar.toNat) ∧
    (exec (.pop a) s = .next t ∨ exec .ret s = .next t →
      t.hidden.mar = s.reg 7 ∧ t.hidden.mdr = s.mem.read t.hidden.mar.toNat)

/-! ### Ports -/

/-- 70_reset_and_hazards.md R243 with D11: an image of at most 256 bytes is loaded at consecutive addresses from 0 and
nothing else changes; a longer one is refused; a missing one is ProgramLoadFailure (60_exceptions.md R216). -/
def Obligations.LoadWritesTheImage : Prop :=
  load none = .error .programUnavailable ∧
  ∀ image : List Byte,
    (256 < image.length → load (some image) = .error .imageTooLong) ∧
    (image.length ≤ 256 → ∃ s, load (some image) = .ok s ∧ s.Legal ∧
      (∀ a, s.mem.read a = if a < image.length then image.getD a 0#8 else 0#8) ∧
      s.regs = State.reset.regs ∧ s.pc = 0 ∧ s.runState = .running ∧ s.fault = none ∧ s.out = [])

/-- 60_exceptions.md R222 and R214 with D6 and D13: the status port. The exit status for OutOfBounds and
UnsupportedOperation is the open non-zero OOB_EXIT_STATUS, whatever it is. -/
def Obligations.StatusPort : Prop :=
  Config.oobExitStatus ≠ 0 ∧
  (∀ s : State, s.runState = .running → exitStatus s = none) ∧
  (∀ s : State, s.runState = .halted → exitStatus s = some 0) ∧
  (∀ (s : State) (ir : Byte), exitStatus (raise (.unknownInstruction ir) s) = some 1) ∧
  (∀ (s : State) (cls : AccessClass) (value : Nat),
    exitStatus (raise (.outOfBounds cls value) s) = some Config.oobExitStatus) ∧
  (∀ (s : State) (op : AluOp), exitStatus (raise (.unsupportedOperation op) s) = some Config.oobExitStatus) ∧
  LoadFailure.exitStatus .programUnavailable = 2 ∧
  (∀ (ir : Byte) (cls : AccessClass) (value fpc : Nat) (op : AluOp),
    kindCode none = 0 ∧ kindCode (some { cause := .unknownInstruction ir, fpc := fpc }) = 1 ∧
    kindCode (some { cause := .outOfBounds cls value, fpc := fpc }) = 2 ∧
    kindCode (some { cause := .unsupportedOperation op, fpc := fpc }) = 3) ∧
  AccessClass.code .fetch = 0 ∧ AccessClass.code .operand = 1 ∧ AccessClass.code .reg = 2

/-- A trace view shows `pc`, three bytes and the registers. At `pc+1` and `pc+2` an address of 256 or more shows as absent
and faults nothing, as 60_exceptions.md R232 and D15 say. That `pc` itself shows as absent there (the clause for `k = 0`),
and the view's form as a tuple, are the model's choice (DEDUCED, log entry 19). -/
def Obligations.TraceShowsAbsentBytes : Prop :=
  ∀ s : State, (traceView s).1 = s.pc ∧ (traceView s).2.1.length = 3 ∧
    (∀ k, k < 3 → (traceView s).2.1[k]? = some (if s.pc + k < 256 then some (s.mem.read (s.pc + k)) else none)) ∧
    ∀ r : RegIndex, (traceView s).2.2[r.val]? = some (s.reg r)

/-- A table word placed where the next step fetches is the instruction that step runs, in every state and wherever `pc`
stands (the model's load hook, log entry 1, over 40_cycle.md R117). -/
def Obligations.PlacedWordRuns : Prop :=
  ∀ (s : State) (nbits w : Nat) (i : Instr), decodeTableWord nbits w = some i →
    step (s.withFetchWord nbits w) = exec i (afterFetch (s.withFetchWord nbits w) i.opcode) ∧
    (s.withFetchWord nbits w).regs = s.regs ∧ (s.withFetchWord nbits w).out = s.out ∧
    (s.pc + i.opcode.width ≤ 256 → (s.withFetchWord nbits w).pc = s.pc)
end

