-- ==== Sys2Proof/Laws/Decode.lean ====
section
/-!
SUPPORT. The opcode map and its literal match, and the parts of an instruction.
-/

namespace Sys2Proof

/-- Every opcode's own byte is matched. -/
@[simp] theorem decodeOpcode_byte (op : Opcode) : decodeOpcode op.byte = some op := by
  cases op <;> rfl

/-- A matched byte is the opcode's own. -/
theorem byte_of_decodeOpcode {ir : Byte} {op : Opcode} (h : decodeOpcode ir = some op) : ir = op.byte := by
  unfold decodeOpcode at h
  split_ifs at h <;> cases h <;> assumption

@[simp] theorem Opcode.opcode_instr (op : Opcode) (a b : Byte) : (op.instr a b).opcode = op := by
  cases op <;> rfl

/-- The operand bytes an opcode's instruction keeps. -/
theorem Opcode.operands_instr (op : Opcode) (a b : Byte) :
    (op.instr a b).operands = [a, b].take op.operandCount := by
  cases op <;> rfl

theorem Opcode.operandCount_le (op : Opcode) : op.operandCount ≤ 2 := by
  cases op <;> decide

@[simp] theorem Instr.length_operands (i : Instr) : i.operands.length = i.opcode.operandCount := by
  cases i <;> rfl

/-- An instruction is its opcode with its operand bytes. -/
theorem Instr.instr_operands (i : Instr) : i.opcode.instr (i.operands.getD 0 0) (i.operands.getD 1 0) = i := by
  cases i <;> rfl

end Sys2Proof
end

