-- ==== Sys2Proof/Laws/State.lean ====
section
/-!
SUPPORT. What each update of the state does to each field, one lemma per field per update.
-/

namespace Sys2Proof.Machine

variable (s : State)

@[simp] theorem State.pc_setReg (r : RegIndex) (v : Byte) : (s.setReg r v).pc = s.pc := rfl
@[simp] theorem State.mem_setReg (r : RegIndex) (v : Byte) : (s.setReg r v).mem = s.mem := rfl
@[simp] theorem State.runState_setReg (r : RegIndex) (v : Byte) : (s.setReg r v).runState = s.runState := rfl
@[simp] theorem State.fault_setReg (r : RegIndex) (v : Byte) : (s.setReg r v).fault = s.fault := rfl
@[simp] theorem State.out_setReg (r : RegIndex) (v : Byte) : (s.setReg r v).out = s.out := rfl
@[simp] theorem State.hidden_setReg (r : RegIndex) (v : Byte) : (s.setReg r v).hidden = s.hidden := rfl

@[simp] theorem State.pc_decSp : s.decSp.pc = s.pc := rfl
@[simp] theorem State.mem_decSp : s.decSp.mem = s.mem := rfl
@[simp] theorem State.runState_decSp : s.decSp.runState = s.runState := rfl
@[simp] theorem State.fault_decSp : s.decSp.fault = s.fault := rfl
@[simp] theorem State.out_decSp : s.decSp.out = s.out := rfl
@[simp] theorem State.hidden_decSp : s.decSp.hidden = s.hidden := rfl

@[simp] theorem State.pc_incSp : s.incSp.pc = s.pc := rfl
@[simp] theorem State.mem_incSp : s.incSp.mem = s.mem := rfl
@[simp] theorem State.runState_incSp : s.incSp.runState = s.runState := rfl
@[simp] theorem State.fault_incSp : s.incSp.fault = s.fault := rfl
@[simp] theorem State.out_incSp : s.incSp.out = s.out := rfl
@[simp] theorem State.hidden_incSp : s.incSp.hidden = s.hidden := rfl

@[simp] theorem State.reg_setPc (p : Nat) (q : RegIndex) : (s.setPc p).reg q = s.reg q := rfl
@[simp] theorem State.regs_setPc (p : Nat) : (s.setPc p).regs = s.regs := rfl
@[simp] theorem State.pc_setPc (p : Nat) : (s.setPc p).pc = p := rfl
@[simp] theorem State.mem_setPc (p : Nat) : (s.setPc p).mem = s.mem := rfl
@[simp] theorem State.runState_setPc (p : Nat) : (s.setPc p).runState = s.runState := rfl
@[simp] theorem State.fault_setPc (p : Nat) : (s.setPc p).fault = s.fault := rfl
@[simp] theorem State.out_setPc (p : Nat) : (s.setPc p).out = s.out := rfl
@[simp] theorem State.hidden_setPc (p : Nat) : (s.setPc p).hidden = s.hidden := rfl

@[simp] theorem State.reg_advance (w : Nat) (q : RegIndex) : (s.advance w).reg q = s.reg q := rfl
@[simp] theorem State.regs_advance (w : Nat) : (s.advance w).regs = s.regs := rfl
@[simp] theorem State.pc_advance (w : Nat) : (s.advance w).pc = s.pc + w := rfl
@[simp] theorem State.mem_advance (w : Nat) : (s.advance w).mem = s.mem := rfl
@[simp] theorem State.runState_advance (w : Nat) : (s.advance w).runState = s.runState := rfl
@[simp] theorem State.fault_advance (w : Nat) : (s.advance w).fault = s.fault := rfl
@[simp] theorem State.out_advance (w : Nat) : (s.advance w).out = s.out := rfl
@[simp] theorem State.hidden_advance (w : Nat) : (s.advance w).hidden = s.hidden := rfl

@[simp] theorem State.reg_emit (v : Byte) (q : RegIndex) : (s.emit v).reg q = s.reg q := rfl
@[simp] theorem State.regs_emit (v : Byte) : (s.emit v).regs = s.regs := rfl
@[simp] theorem State.pc_emit (v : Byte) : (s.emit v).pc = s.pc := rfl
@[simp] theorem State.mem_emit (v : Byte) : (s.emit v).mem = s.mem := rfl
@[simp] theorem State.runState_emit (v : Byte) : (s.emit v).runState = s.runState := rfl
@[simp] theorem State.fault_emit (v : Byte) : (s.emit v).fault = s.fault := rfl
@[simp] theorem State.out_emit (v : Byte) : (s.emit v).out = s.out ++ [v] := rfl
@[simp] theorem State.hidden_emit (v : Byte) : (s.emit v).hidden = s.hidden := rfl

@[simp] theorem State.reg_halt (q : RegIndex) : s.halt.reg q = s.reg q := rfl
@[simp] theorem State.regs_halt : s.halt.regs = s.regs := rfl
@[simp] theorem State.pc_halt : s.halt.pc = s.pc := rfl
@[simp] theorem State.mem_halt : s.halt.mem = s.mem := rfl
@[simp] theorem State.runState_halt : s.halt.runState = .halted := rfl
@[simp] theorem State.fault_halt : s.halt.fault = s.fault := rfl
@[simp] theorem State.out_halt : s.halt.out = s.out := rfl
@[simp] theorem State.hidden_halt : s.halt.hidden = s.hidden := rfl

@[simp] theorem State.reg_latchAccess (a v : Byte) (q : RegIndex) : (s.latchAccess a v).reg q = s.reg q := rfl
@[simp] theorem State.regs_latchAccess (a v : Byte) : (s.latchAccess a v).regs = s.regs := rfl
@[simp] theorem State.pc_latchAccess (a v : Byte) : (s.latchAccess a v).pc = s.pc := rfl
@[simp] theorem State.mem_latchAccess (a v : Byte) : (s.latchAccess a v).mem = s.mem := rfl
@[simp] theorem State.runState_latchAccess (a v : Byte) : (s.latchAccess a v).runState = s.runState := rfl
@[simp] theorem State.fault_latchAccess (a v : Byte) : (s.latchAccess a v).fault = s.fault := rfl
@[simp] theorem State.out_latchAccess (a v : Byte) : (s.latchAccess a v).out = s.out := rfl
@[simp] theorem State.hidden_latchAccess (a v : Byte) : (s.latchAccess a v).hidden = { s.hidden with mar := a, mdr := v } := rfl

@[simp] theorem State.reg_latchIr (v : Byte) (q : RegIndex) : (s.latchIr v).reg q = s.reg q := rfl
@[simp] theorem State.regs_latchIr (v : Byte) : (s.latchIr v).regs = s.regs := rfl
@[simp] theorem State.pc_latchIr (v : Byte) : (s.latchIr v).pc = s.pc := rfl
@[simp] theorem State.mem_latchIr (v : Byte) : (s.latchIr v).mem = s.mem := rfl
@[simp] theorem State.runState_latchIr (v : Byte) : (s.latchIr v).runState = s.runState := rfl
@[simp] theorem State.fault_latchIr (v : Byte) : (s.latchIr v).fault = s.fault := rfl
@[simp] theorem State.out_latchIr (v : Byte) : (s.latchIr v).out = s.out := rfl
@[simp] theorem State.hidden_latchIr (v : Byte) : (s.latchIr v).hidden = { s.hidden with ir := v } := rfl

@[simp] theorem State.reg_latchOpa (v : Byte) (q : RegIndex) : (s.latchOpa v).reg q = s.reg q := rfl
@[simp] theorem State.regs_latchOpa (v : Byte) : (s.latchOpa v).regs = s.regs := rfl
@[simp] theorem State.pc_latchOpa (v : Byte) : (s.latchOpa v).pc = s.pc := rfl
@[simp] theorem State.mem_latchOpa (v : Byte) : (s.latchOpa v).mem = s.mem := rfl
@[simp] theorem State.runState_latchOpa (v : Byte) : (s.latchOpa v).runState = s.runState := rfl
@[simp] theorem State.fault_latchOpa (v : Byte) : (s.latchOpa v).fault = s.fault := rfl
@[simp] theorem State.out_latchOpa (v : Byte) : (s.latchOpa v).out = s.out := rfl
@[simp] theorem State.hidden_latchOpa (v : Byte) : (s.latchOpa v).hidden = { s.hidden with opa := v } := rfl

@[simp] theorem State.reg_latchOpb (v : Byte) (q : RegIndex) : (s.latchOpb v).reg q = s.reg q := rfl
@[simp] theorem State.regs_latchOpb (v : Byte) : (s.latchOpb v).regs = s.regs := rfl
@[simp] theorem State.pc_latchOpb (v : Byte) : (s.latchOpb v).pc = s.pc := rfl
@[simp] theorem State.mem_latchOpb (v : Byte) : (s.latchOpb v).mem = s.mem := rfl
@[simp] theorem State.runState_latchOpb (v : Byte) : (s.latchOpb v).runState = s.runState := rfl
@[simp] theorem State.fault_latchOpb (v : Byte) : (s.latchOpb v).fault = s.fault := rfl
@[simp] theorem State.out_latchOpb (v : Byte) : (s.latchOpb v).out = s.out := rfl
@[simp] theorem State.hidden_latchOpb (v : Byte) : (s.latchOpb v).hidden = { s.hidden with opb := v } := rfl

@[simp] theorem State.reg_readStack (q : RegIndex) : s.readStack.reg q = s.reg q := rfl
@[simp] theorem State.regs_readStack : s.readStack.regs = s.regs := rfl
@[simp] theorem State.pc_readStack : s.readStack.pc = s.pc := rfl
@[simp] theorem State.mem_readStack : s.readStack.mem = s.mem := rfl
@[simp] theorem State.runState_readStack : s.readStack.runState = s.runState := rfl
@[simp] theorem State.fault_readStack : s.readStack.fault = s.fault := rfl
@[simp] theorem State.out_readStack : s.readStack.out = s.out := rfl

@[simp] theorem State.reg_writeStack (v : Byte) (q : RegIndex) : (s.writeStack v).reg q = s.reg q := rfl
@[simp] theorem State.regs_writeStack (v : Byte) : (s.writeStack v).regs = s.regs := rfl
@[simp] theorem State.pc_writeStack (v : Byte) : (s.writeStack v).pc = s.pc := rfl
@[simp] theorem State.mem_writeStack (v : Byte) : (s.writeStack v).mem = s.mem.write (stackAddress s) v := rfl
@[simp] theorem State.runState_writeStack (v : Byte) : (s.writeStack v).runState = s.runState := rfl
@[simp] theorem State.fault_writeStack (v : Byte) : (s.writeStack v).fault = s.fault := rfl
@[simp] theorem State.out_writeStack (v : Byte) : (s.writeStack v).out = s.out := rfl

/-- A register read after a register write. -/
@[simp] theorem State.reg_setReg (r : RegIndex) (v : Byte) (q : RegIndex) :
    (s.setReg r v).reg q = if q = r then v else s.reg q := by
  simp [State.setReg, State.reg, Vector.getElem_set, Fin.ext_iff, eq_comm]

@[simp] theorem State.reg_decSp (q : RegIndex) :
    s.decSp.reg q = if q = spIndex then s.reg spIndex - 1#8 else s.reg q := State.reg_setReg s ..

@[simp] theorem State.reg_incSp (q : RegIndex) :
    s.incSp.reg q = if q = spIndex then s.reg spIndex + 1#8 else s.reg q := State.reg_setReg s ..

/-- Register files that agree on every register are one. -/
theorem State.regs_ext (t : State) (h : ∀ r, t.reg r = s.reg r) : t.regs = s.regs := by
  exact Vector.ext fun i hi => h ⟨i, hi⟩

/-! ### Taking a fault -/

variable (cause : FaultCause)

@[simp] theorem raise_reg (q : RegIndex) : (raise cause s).reg q = s.reg q := rfl
@[simp] theorem raise_regs : (raise cause s).regs = s.regs := rfl
@[simp] theorem raise_pc : (raise cause s).pc = s.pc := rfl
@[simp] theorem raise_mem : (raise cause s).mem = s.mem := rfl
@[simp] theorem raise_runState : (raise cause s).runState = .faulted := rfl
@[simp] theorem raise_fault : (raise cause s).fault = some { cause := cause, fpc := s.pc } := rfl
@[simp] theorem raise_out : (raise cause s).out = s.out := rfl
@[simp] theorem raise_hidden : (raise cause s).hidden = s.hidden := rfl

end Sys2Proof.Machine
end

