-- ==== Sys2Proof/Laws/Ops.lean ====
section
/-!
SUPPORT. What each shared operation can do, said once.
-/

namespace Sys2Proof.Machine

/-! ### Register operands -/

theorem regIndex_of_lt {b : Byte} (h : b.toNat < 8) : regIndex b = .ok ⟨b.toNat, h⟩ := dif_pos h

theorem regIndex_of_ge {b : Byte} (h : 8 ≤ b.toNat) : regIndex b = .error (.outOfBounds .reg b.toNat) :=
  dif_neg (by omega)

variable {s t : State} {a b : Byte}

theorem withReg_of_lt (h : a.toNat < 8) (k : RegIndex → Host.Outcome State Fault Refusal) :
    withReg a s k = k ⟨a.toNat, h⟩ := by
  simp [withReg, regIndex_of_lt h]

theorem withReg_of_ge (h : 8 ≤ a.toNat) (k : RegIndex → Host.Outcome State Fault Refusal) :
    withReg a s k = .next (raise (.outOfBounds .reg a.toNat) s) := by
  simp [withReg, regIndex_of_ge h]

/-- One checked register operand: it goes on with the index, or it raises and writes nothing. -/
theorem withReg_cases {k : RegIndex → Host.Outcome State Fault Refusal} (h : withReg a s k = .next t) :
    (∃ ha : a.toNat < 8, k ⟨a.toNat, ha⟩ = .next t) ∨
    (8 ≤ a.toNat ∧ t = raise (.outOfBounds .reg a.toNat) s) := by
  by_cases ha : a.toNat < 8
  · exact .inl ⟨ha, by rwa [withReg_of_lt ha] at h⟩
  · have ha : 8 ≤ a.toNat := by omega
    rw [withReg_of_ge ha] at h
    exact .inr ⟨ha, by cases h; rfl⟩

/-- Two checked register operands, `a` before `b`. -/
theorem withRegs_cases {k : RegIndex → RegIndex → Host.Outcome State Fault Refusal}
    (h : withRegs a b s k = .next t) :
    (∃ (ha : a.toNat < 8) (hb : b.toNat < 8), k ⟨a.toNat, ha⟩ ⟨b.toNat, hb⟩ = .next t) ∨
    (8 ≤ a.toNat ∧ t = raise (.outOfBounds .reg a.toNat) s) ∨
    (a.toNat < 8 ∧ 8 ≤ b.toNat ∧ t = raise (.outOfBounds .reg b.toNat) s) := by
  rcases withReg_cases h with ⟨ha, h⟩ | h
  · rcases withReg_cases h with ⟨hb, h⟩ | ⟨hb, h⟩
    · exact .inl ⟨ha, hb, h⟩
    · exact .inr (.inr ⟨ha, hb, h⟩)
  · exact .inr (.inl h)

/-! ### Memory accesses -/

theorem memRead_of_lt (cls : AccessClass) {addr : Nat} (h : addr < 256) :
    memRead cls addr s = .ok (s.mem.read addr, s.latchAccess (BitVec.ofNat 8 addr) (s.mem.read addr)) := by
  simp [memRead, Memory.readChecked, h]

theorem memRead_of_ge (cls : AccessClass) {addr : Nat} (h : 256 ≤ addr) :
    memRead cls addr s = .error (.outOfBounds cls addr) := by
  simp [memRead, Memory.readChecked, Nat.not_lt.mpr h]

theorem stackAddress_lt (s : State) : stackAddress s < 256 := (s.reg spIndex).isLt

/-! ### The ALU -/

/-- The decoder's two operations never fail. -/
theorem aluResult_add (v w : Byte) : aluResult .add v w = .ok (v + w) := by
  simp [aluResult, BitVec.ofNat_add]

theorem aluResult_mul (v w : Byte) : aluResult .mul v w = .ok (v * w) := by
  simp [aluResult, BitVec.ofNat_mul]

end Sys2Proof.Machine
end

