-- ==== Sys2Proof/Laws/Exec.lean ====
section
/-!
SUPPORT. What each instruction's meaning answers when its register operands name registers, in the model's own
operations.
-/

namespace Sys2Proof.Machine

variable (s : State) {a b : Byte}

theorem exec_hlt : exec .hlt s = .next (s.halt.advance 1) := rfl

theorem exec_ldi (ha : a.toNat < 8) : exec (.ldi a b) s = .next ((s.setReg ⟨a.toNat, ha⟩ b).advance 3) :=
  withReg_of_lt ha _

theorem exec_prn (ha : a.toNat < 8) : exec (.prn a) s = .next ((s.emit (s.reg ⟨a.toNat, ha⟩)).advance 2) :=
  withReg_of_lt ha _

theorem exec_add (ha : a.toNat < 8) (hb : b.toNat < 8) :
    exec (.add a b) s =
      .next ((s.setReg ⟨a.toNat, ha⟩ (s.reg ⟨a.toNat, ha⟩ + s.reg ⟨b.toNat, hb⟩)).advance 3) := by
  simp [exec, execAdd, execAlu, withRegs, withReg_of_lt ha, withReg_of_lt hb, aluResult_add]

theorem exec_mul (ha : a.toNat < 8) (hb : b.toNat < 8) :
    exec (.mul a b) s =
      .next ((s.setReg ⟨a.toNat, ha⟩ (s.reg ⟨a.toNat, ha⟩ * s.reg ⟨b.toNat, hb⟩)).advance 3) := by
  simp [exec, execMul, execAlu, withRegs, withReg_of_lt ha, withReg_of_lt hb, aluResult_mul]

theorem exec_push (ha : a.toNat < 8) :
    exec (.push a) s = .next ((s.decSp.writeStack (s.decSp.reg ⟨a.toNat, ha⟩)).advance 2) :=
  withReg_of_lt ha _

theorem exec_pop (ha : a.toNat < 8) :
    exec (.pop a) s = .next (((s.readStack.setReg ⟨a.toNat, ha⟩ (stackByte s)).incSp).advance 2) :=
  withReg_of_lt ha _

theorem exec_call (ha : a.toNat < 8) :
    exec (.call a) s =
      .next ((s.decSp.writeStack (returnAddress s)).setPc (s.decSp.reg ⟨a.toNat, ha⟩).toNat) :=
  withReg_of_lt ha _

theorem exec_ret : exec .ret s = .next ((s.readStack.setPc (stackByte s).toNat).incSp) := rfl

end Sys2Proof.Machine
end

