-- ==== Sys2Proof/Laws/Memory.lean ====
section
/-!
SUPPORT. The memory array: a read after a write, and the canonical form kept by every operation.
-/

namespace Sys2Proof.Machine

/-! ### Reads after writes, on any list -/

theorem Memory.read_eraseCell (m : Memory) (a b : Nat) :
    (m.eraseCell a).read b = if b = a then 0#8 else m.read b := by
  induction m with
  | nil => simp [Memory.eraseCell, Memory.read]
  | cons c rest ih =>
    obtain ⟨k, v⟩ := c
    have step : Memory.eraseCell ((k, v) :: rest) a =
        if k = a then Memory.eraseCell rest a else (k, v) :: Memory.eraseCell rest a := by
      by_cases h : k = a <;> simp [Memory.eraseCell, h]
    by_cases h : k = a
    · subst h
      by_cases hb : b = k
      · subst hb; simpa [step] using ih
      · simpa [step, hb, Memory.read, Ne.symm hb] using ih
    · by_cases hb : k = b
      · subst hb; simp [step, h, Memory.read]
      · simp [step, h, Memory.read, ih, hb]

theorem Memory.read_insertCell (m : Memory) (a : Nat) (v : Byte) (b : Nat) (fresh : ∀ c ∈ m, c.1 ≠ a) :
    (m.insertCell a v).read b = if b = a then v else m.read b := by
  induction m with
  | nil => simp [Memory.insertCell, Memory.read, @eq_comm _ a b]
  | cons c rest ih =>
    obtain ⟨k, w⟩ := c
    have hk : k ≠ a := fresh (k, w) (by simp)
    have hrest := ih fun c hc => fresh c (by simp [hc])
    by_cases hlt : a < k
    · by_cases hb : b = a
      · simp [Memory.insertCell, hlt, Memory.read, hb]
      · simp [Memory.insertCell, hlt, Memory.read, hb, Ne.symm hb]
    · by_cases hb : k = b
      · subst hb; simp [Memory.insertCell, hlt, Memory.read, hk]
      · simp [Memory.insertCell, hlt, Memory.read, hb, hrest]

theorem Memory.mem_eraseCell_ne (m : Memory) (a : Nat) : ∀ c ∈ m.eraseCell a, c.1 ≠ a := by
  intro c hc
  simpa using (List.mem_filter.mp hc).2

/-- A read after a write: the written value in the written cell, every other cell as it was. -/
theorem Memory.read_write (m : Memory) (a : Nat) (v : Byte) (b : Nat) :
    (m.write a v).read b = if b = a then v else m.read b := by
  unfold Memory.write
  by_cases hv : v = 0#8
  · simp [hv, Memory.read_eraseCell]
  · rw [if_neg hv, Memory.read_insertCell _ _ _ _ (Memory.mem_eraseCell_ne m a)]
    by_cases hb : b = a <;> simp [hb, Memory.read_eraseCell]

/-! ### The canonical form -/

/-- The canonical form of the list, by what it says of its cells. -/
theorem Memory.wf_iff (m : Memory) :
    m.wf = true ↔ Memory.risingFrom 0 m = true ∧ ∀ c ∈ m, c.1 < 256 ∧ c.2 ≠ 0#8 := by
  simp [Memory.wf]

theorem Memory.risingFrom_mono {low low' : Nat} (h : low' ≤ low) {m : Memory} (hm : Memory.risingFrom low m = true) :
    Memory.risingFrom low' m = true := by
  cases m with
  | nil => rfl
  | cons c rest =>
    simp only [Memory.risingFrom, Bool.and_eq_true, decide_eq_true_eq] at hm ⊢
    exact ⟨by omega, hm.2⟩

theorem Memory.risingFrom_eraseCell (m : Memory) (a low : Nat) (hm : Memory.risingFrom low m = true) :
    Memory.risingFrom low (m.eraseCell a) = true := by
  induction m generalizing low with
  | nil => rfl
  | cons c rest ih =>
    obtain ⟨k, v⟩ := c
    simp only [Memory.risingFrom, Bool.and_eq_true, decide_eq_true_eq] at hm
    by_cases h : k = a
    · have : Memory.eraseCell ((k, v) :: rest) a = Memory.eraseCell rest a := by simp [Memory.eraseCell, h]
      exact this ▸ Memory.risingFrom_mono (by omega) (ih _ hm.2)
    · have : Memory.eraseCell ((k, v) :: rest) a = (k, v) :: Memory.eraseCell rest a := by simp [Memory.eraseCell, h]
      simp [this, Memory.risingFrom, hm.1, ih _ hm.2]

theorem Memory.risingFrom_insertCell (m : Memory) (a : Nat) (v : Byte) (low : Nat) (hlow : low ≤ a)
    (fresh : ∀ c ∈ m, c.1 ≠ a) (hm : Memory.risingFrom low m = true) :
    Memory.risingFrom low (m.insertCell a v) = true := by
  induction m generalizing low with
  | nil => simp [Memory.insertCell, Memory.risingFrom, hlow]
  | cons c rest ih =>
    obtain ⟨k, w⟩ := c
    have hk : k ≠ a := fresh (k, w) (by simp)
    simp only [Memory.risingFrom, Bool.and_eq_true, decide_eq_true_eq] at hm
    by_cases hlt : a < k
    · simp [Memory.insertCell, hlt, Memory.risingFrom, hlow, hm.2]
    · simp [Memory.insertCell, hlt, Memory.risingFrom, hm.1,
        ih (k + 1) (by omega) (fun c hc => fresh c (by simp [hc])) hm.2]

theorem Memory.mem_insertCell {m : Memory} {a : Nat} {v : Byte} {c : Host.Cell} (hc : c ∈ m.insertCell a v) :
    c = (a, v) ∨ c ∈ m := by
  induction m with
  | nil => simpa [Memory.insertCell] using hc
  | cons d rest ih =>
    obtain ⟨k, w⟩ := d
    by_cases hlt : a < k
    · simpa [Memory.insertCell, hlt] using hc
    · rw [Memory.insertCell, if_neg hlt, List.mem_cons] at hc
      rcases hc with rfl | hc
      · simp
      · rcases ih hc with h | h <;> simp [h]

/-- Every write inside memory keeps the canonical form. -/
theorem Memory.wf_write (m : Memory) (a : Nat) (v : Byte) (ha : a < 256) (hm : m.wf = true) :
    (m.write a v).wf = true := by
  rw [Memory.wf_iff] at hm ⊢
  have rising := Memory.risingFrom_eraseCell m a 0 hm.1
  have cells : ∀ c ∈ m.eraseCell a, c.1 < 256 ∧ c.2 ≠ 0#8 := fun c hc => hm.2 c (List.mem_filter.mp hc).1
  unfold Memory.write
  by_cases hv : v = 0#8
  · exact (if_pos hv).symm ▸ ⟨rising, cells⟩
  · rw [if_neg hv]
    refine ⟨Memory.risingFrom_insertCell _ a v 0 (by omega) (Memory.mem_eraseCell_ne m a) rising, fun c hc => ?_⟩
    rcases Memory.mem_insertCell hc with rfl | hc
    · exact ⟨ha, hv⟩
    · exact cells c hc

/-- Memory at reset has the canonical form. -/
theorem Memory.wf_reset : State.reset.mem.wf = true := rfl

/-- The contract's write inside memory. -/
theorem Memory.writeChecked_eq_some {m m' : Memory} {a : Nat} {v : Byte} (h : m.writeChecked a v = some m') :
    a < 256 ∧ m' = m.write a v := by
  unfold Memory.writeChecked at h
  split at h
  · exact ⟨‹_›, (Option.some.inj h).symm⟩
  · cases h

/-- Writing bytes keeps the canonical form. -/
theorem Memory.wf_writeBytes {bytes : List Byte} {a : Nat} {m m' : Memory} (h : Memory.writeBytes bytes a m = some m')
    (hm : m.wf = true) : m'.wf = true := by
  induction bytes generalizing a m with
  | nil => cases h; exact hm
  | cons b bs ih =>
    unfold Memory.writeBytes at h
    split at h
    · cases h
    · obtain ⟨ha, rfl⟩ := Memory.writeChecked_eq_some ‹_›
      exact ih h (Memory.wf_write m a b ha hm)

/-- Writing bytes succeeds when they all lie in memory, and then fails nowhere. -/
theorem Memory.writeBytes_isSome (bytes : List Byte) (a : Nat) (m : Memory) (h : a + bytes.length ≤ 256) :
    ∃ m', Memory.writeBytes bytes a m = some m' := by
  induction bytes generalizing a m with
  | nil => exact ⟨m, rfl⟩
  | cons b bs ih =>
    simp only [List.length_cons] at h
    have ha : a < 256 := by omega
    obtain ⟨m', hm'⟩ := ih (a + 1) (m.write a b) (by omega)
    exact ⟨m', by simp [Memory.writeBytes, Memory.writeChecked, ha, hm']⟩

/-- What a cell holds after bytes were written from `a`. -/
theorem Memory.read_writeBytes {bytes : List Byte} {a : Nat} {m m' : Memory} (h : Memory.writeBytes bytes a m = some m')
    (b : Nat) : m'.read b = if a ≤ b ∧ b < a + bytes.length then bytes.getD (b - a) 0#8 else m.read b := by
  induction bytes generalizing a m with
  | nil =>
    cases h
    rw [if_neg (by simp only [List.length_nil]; omega)]
  | cons v vs ih =>
    unfold Memory.writeBytes at h
    split at h
    · cases h
    · obtain ⟨-, rfl⟩ := Memory.writeChecked_eq_some ‹_›
      rw [ih h, Memory.read_write]
      simp only [List.length_cons]
      rcases Nat.lt_trichotomy b a with hb | rfl | hb
      · rw [if_neg (by omega), if_neg (by omega), if_neg (by omega)]
      · rw [if_neg (by omega), if_pos rfl, if_pos (by omega)]; simp
      · by_cases hin : b < a + (vs.length + 1)
        · rw [if_pos (by omega), if_pos (by omega)]
          obtain ⟨d, rfl⟩ : ∃ d, b = a + 1 + d := ⟨b - (a + 1), by omega⟩
          rw [show a + 1 + d - (a + 1) = d by omega, show a + 1 + d - a = d + 1 by omega]
          rfl
        · rw [if_neg (by omega), if_neg (by omega), if_neg (by omega)]

end Sys2Proof.Machine
end

