-- ==== Sys2Proof/Laws/Fetch.lean ====
section
/-!
SUPPORT. Everything fetch and decode can do, in one equation.
-/

namespace Sys2Proof.Machine

variable (s : State)

/-- The fetch, check by check: `pc` outside memory, an unknown opcode byte, an operand byte outside memory (always at
256), or the decoded instruction with the operand bytes of memory and the latches loaded. -/
theorem fetchInstr_eq :
    fetchInstr s =
      if 256 ≤ s.pc then .error (.outOfBounds .fetch s.pc)
      else
        match decodeOpcode (s.mem.read s.pc) with
        | none => .error (.unknownInstruction (s.mem.read s.pc))
        | some op =>
          if 256 < s.pc + op.width then .error (.outOfBounds .operand 256)
          else .ok (op.instr (s.mem.read (s.pc + 1)) (s.mem.read (s.pc + 2)), afterFetch s op) := by
  by_cases hpc : 256 ≤ s.pc
  · simp [fetchInstr, memRead_of_ge .fetch hpc, hpc]
  · have hlt : s.pc < 256 := by omega
    simp only [fetchInstr, memRead_of_lt .fetch hlt, if_neg hpc]
    cases hop : decodeOpcode (s.mem.read s.pc) with
    | none => rfl
    | some op =>
      rcases (by omega : s.pc + 2 < 256 ∨ s.pc = 254 ∨ s.pc = 255) with h2 | hpc' | hpc'
      · have h1 : s.pc + 1 < 256 := by omega
        have h0 : ¬ 256 < s.pc + 1 := by omega
        have h3 : ¬ 256 < s.pc + 2 := by omega
        have h4 : ¬ 256 < s.pc + 3 := by omega
        cases op <;>
          simp [fetchOperands, Opcode.operandCount, Opcode.width, memRead_of_lt .operand h1,
            memRead_of_lt .operand h2, Opcode.instr, afterFetch, State.latchAccess, State.latchIr, State.latchOpa,
            State.latchOpb, h0, h3, h4]
      · obtain ⟨regs, pc, mem, runState, fault, out, hidden⟩ := s
        subst hpc'
        cases op <;>
          simp [fetchOperands, Opcode.operandCount, Opcode.width, memRead_of_lt, memRead_of_ge, Opcode.instr,
            afterFetch, State.latchAccess, State.latchIr, State.latchOpa]
      · obtain ⟨regs, pc, mem, runState, fault, out, hidden⟩ := s
        subst hpc'
        cases op <;>
          simp [fetchOperands, Opcode.operandCount, Opcode.width, memRead_of_ge, Opcode.instr, afterFetch,
            State.latchAccess, State.latchIr]

/-- What a completed fetch says of memory and of the instruction, and that it changed nothing architectural. -/
theorem fetchInstr_ok {s s' : State} {i : Instr} (h : fetchInstr s = .ok (i, s')) :
    ∃ op, s.pc + op.width ≤ 256 ∧ decodeOpcode (s.mem.read s.pc) = some op ∧
      i = op.instr (s.mem.read (s.pc + 1)) (s.mem.read (s.pc + 2)) ∧ s' = afterFetch s op := by
  rw [fetchInstr_eq] at h
  split_ifs at h with hpc
  split at h
  · cases h
  · split_ifs at h with hw
    cases h
    exact ⟨_, by omega, ‹_›, rfl, rfl⟩

/-- Placing an instruction keeps memory's canonical form. -/
theorem wf_placeInstr (bytes : List Byte) (h : s.mem.wf = true) : (placeInstr bytes s).mem.wf = true := by
  simp only [placeInstr]
  cases hw : Memory.writeBytes (bytes.take (Config.memSize - placementAddress s (leadingWidth bytes)))
      (placementAddress s (leadingWidth bytes)) s.mem with
  | none => exact h
  | some m => exact Memory.wf_writeBytes hw h

@[simp] theorem afterFetch_reg (op : Opcode) (r : RegIndex) : (afterFetch s op).reg r = s.reg r := rfl
@[simp] theorem afterFetch_regs (op : Opcode) : (afterFetch s op).regs = s.regs := rfl
@[simp] theorem afterFetch_pc (op : Opcode) : (afterFetch s op).pc = s.pc := rfl
@[simp] theorem afterFetch_mem (op : Opcode) : (afterFetch s op).mem = s.mem := rfl
@[simp] theorem afterFetch_runState (op : Opcode) : (afterFetch s op).runState = s.runState := rfl
@[simp] theorem afterFetch_fault (op : Opcode) : (afterFetch s op).fault = s.fault := rfl
@[simp] theorem afterFetch_out (op : Opcode) : (afterFetch s op).out = s.out := rfl

end Sys2Proof.Machine
end

