-- ==== Sys2Proof/Laws/Step.lean ====
section
/-!
SUPPORT. Everything one step can do, said once.
-/

namespace Sys2Proof.Machine

variable {s t : State}

/-- A step that fetches an instruction executes it. -/
theorem step_of_fetch {i : Instr} {s' : State} (hr : s.runState = .running) (h : fetchInstr s = .ok (i, s')) :
    step s = exec i s' := by
  simp [step, hr, h]

/-- A step whose fetch fails raises the fault and writes nothing else. -/
theorem step_of_error {cause : FaultCause} (hr : s.runState = .running) (h : fetchInstr s = .error cause) :
    step s = .next (raise cause s) := by
  simp [step, hr, h]

/-- A step that answers a next state ran in RUNNING: its fetch failed and it raised, or it executed the instruction in
memory from the state the fetch left. -/
theorem step_cases (h : step s = .next t) :
    s.runState = .running ∧
    ((∃ cause, fetchInstr s = .error cause ∧ t = raise cause s) ∨
     (∃ op, s.pc + op.width ≤ 256 ∧ decodeOpcode (s.mem.read s.pc) = some op ∧
        exec (op.instr (s.mem.read (s.pc + 1)) (s.mem.read (s.pc + 2))) (afterFetch s op) = .next t)) := by
  have hr : s.runState = .running := by
    cases hr : s.runState <;> simp [step, hr] at h ⊢
  refine ⟨hr, ?_⟩
  cases hf : fetchInstr s with
  | error cause =>
    rw [step_of_error hr hf] at h
    exact .inl ⟨cause, rfl, by cases h; rfl⟩
  | ok p =>
    obtain ⟨i, s'⟩ := p
    obtain ⟨op, hw, hop, rfl, rfl⟩ := fetchInstr_ok hf
    exact .inr ⟨op, hw, hop, by rwa [step_of_fetch hr hf] at h⟩

end Sys2Proof.Machine
end

