-- ==== Sys2Proof/Tests/Slice0.lean ====
section
/-!
SUPPORT. Tests and witnesses. Every expected result of a `test_` theorem is a vector of spec/95_test_vectors.md (its id
stands in the comment) or a rule's own example. A `witness_<Obligation>` theorem gives states and operands that meet all
hypotheses of that obligation together, clause by clause at the edges.
-/

namespace Sys2Proof.Tests

open Sys2Proof Sys2Proof.Machine

/-- A RUNNING state with this `pc`, these registers and these cells, everything else as at reset. -/
def machine (pc : Nat) (regs : Vector Byte 8) (mem : Memory) : State :=
  { State.reset with pc := pc, regs := regs, mem := mem }

/-- Registers that are 0 but for r0, r1 and r7. -/
def regs017 (r0 r1 r7 : Byte) : Vector Byte 8 := #v[r0, r1, 0#8, 0#8, 0#8, 0#8, 0#8, r7]

/-- The next state of an outcome. -/
def nextOf : Host.Outcome State Fault Refusal → Option State
  | .next s => some s
  | .fault _ => none
  | .refused _ => none

/-- One field of the state one step leads to. -/
def stepGives {α : Type} (s : State) (field : State → α) : Option α := (nextOf (step s)).map field

/-! ### Decoding: words written out from 30_encoding.md R82, first byte in bits 7..0 -/

theorem test_decode_hlt : decodeTableWord 8 0b00000001 = some .hlt := by decide
theorem test_decode_ldi : decodeTableWord 24 0b000010000000000010000010 = some (.ldi 0 8) := by decide
theorem test_decode_prn : decodeTableWord 16 0b0000000001000111 = some (.prn 0) := by decide
theorem test_decode_add : decodeTableWord 24 0b000000010000011110100000 = some (.add 7 1) := by decide
theorem test_decode_mul : decodeTableWord 24 0b000000010000000010100010 = some (.mul 0 1) := by decide
theorem test_decode_push : decodeTableWord 16 0b0000001001000101 = some (.push 2) := by decide
theorem test_decode_pop : decodeTableWord 16 0b0000000101000110 = some (.pop 1) := by decide
theorem test_decode_call : decodeTableWord 16 0b0000000101010000 = some (.call 1) := by decide
theorem test_decode_ret : decodeTableWord 8 0b00010001 = some .ret := by decide

/-- Bits above `nbits` are 0: a table word of the opcode byte alone has operands of 0. -/
theorem test_decode_opcode_alone : decodeTableWord 8 0xFFFF82 = some (.ldi 0 0) := by decide

/-- FD2 to FD6: the illegal bytes of 95_test_vectors.md, named in the rejection. -/
theorem test_decode_rejects :
    [0x00#8, 0xFF#8, 0xA1#8, 0x83#8, 0x40#8].map (fun ir => decode [ir, 0#8, 0#8]) =
      [.error (.unknownInstruction 0x00#8), .error (.unknownInstruction 0xFF#8), .error (.unknownInstruction 0xA1#8),
       .error (.unknownInstruction 0x83#8), .error (.unknownInstruction 0x40#8)] := rfl

/-- An operand byte the width calls for and that is not there. -/
theorem test_decode_truncated :
    decode [] = .error .noOpcode ∧ decode [0x82#8] = .error (.missingOperand 1) ∧
    decode [0x82#8, 0x00#8] = .error (.missingOperand 2) ∧ decode [0x47#8] = .error (.missingOperand 1) :=
  ⟨rfl, rfl, rfl, rfl⟩

/-- R89: the spelling of the source's example. -/
theorem test_assembly : assemblyText (.ldi 0 8) = some ['L', 'D', 'I', ' ', 'r', '0', ' ', '8'] ∧
    assemblyText (.mul 0 1) = some ['M', 'U', 'L', ' ', 'r', '0', ' ', 'r', '1'] := by decide

/-! ### WellFormed refuses a register operand of 8 or more, operand by operand -/

theorem smoke_ldi_a : (Instr.ldi 8 0).wellFormed = false := by decide
theorem smoke_prn_a : (Instr.prn 8).wellFormed = false := by decide
theorem smoke_add_a : (Instr.add 8 0).wellFormed = false := by decide
theorem smoke_add_b : (Instr.add 0 8).wellFormed = false := by decide
theorem smoke_mul_a : (Instr.mul 8 0).wellFormed = false := by decide
theorem smoke_mul_b : (Instr.mul 0 200).wellFormed = false := by decide
theorem smoke_push_a : (Instr.push 8).wellFormed = false := by decide
theorem smoke_pop_a : (Instr.pop 255).wellFormed = false := by decide
theorem smoke_call_a : (Instr.call 8).wellFormed = false := by decide
/-- LDI's value is no register index. -/
theorem smoke_ldi_value : (Instr.ldi 7 255).wellFormed = true := by decide

/-! ### One step, from bytes in memory -/

/-- FD11, H2: HLT at 255 reads no operand, halts and leaves `pc` at 256. -/
theorem test_hlt_at_255 :
    stepGives (machine 255 (regs017 0 0 0xF4) [(255, 0x01#8)]) (fun t => (t.runState, t.pc, t.fault)) =
      some (.halted, 256, none) := by decide

/-- L1 (R133's example). -/
theorem test_ldi :
    stepGives (machine 0 (regs017 0 0 0xF4) [(0, 0x82#8), (2, 0x08#8)]) (fun t => (t.reg 0, t.pc)) = some (8#8, 3) := by
  decide

/-- L6. -/
theorem test_ldi_bad_register :
    stepGives (machine 0 (regs017 0 0 0xF4) [(0, 0x82#8), (1, 0xFF#8), (2, 0x01#8)]) (fun t => (t.fault, t.pc)) =
      some (some { cause := .outOfBounds .reg 255, fpc := 0 }, 0) := by decide

/-- PR1. -/
theorem test_prn :
    stepGives (machine 0 (regs017 72 0 0xF4) [(0, 0x47#8)]) (fun t => (t.out, t.pc)) = some ([72#8], 2) := by decide

/-- PR4: PRN r7 emits the stack pointer. -/
theorem test_prn_sp :
    stepGives (machine 0 (regs017 0 0 0xF4) [(0, 0x47#8), (1, 0x07#8)]) (fun t => t.out) = some [244#8] := by decide

/-- A3 (R152's example). -/
theorem test_add_wraps :
    stepGives (machine 0 (regs017 200 100 0xF4) [(0, 0xA0#8), (2, 0x01#8)]) (fun t => (t.reg 0, t.reg 1, t.pc)) =
      some (44#8, 100#8, 3) := by decide

/-- FD13: `a` is checked before `b`. -/
theorem test_add_bad_registers :
    stepGives (machine 0 (regs017 0 0 0xF4) [(0, 0xA0#8), (1, 0x09#8), (2, 0x08#8)]) (fun t => t.fault) =
      some (some { cause := .outOfBounds .reg 9, fpc := 0 }) := by decide

/-- M5: 15 * 17. -/
theorem test_mul :
    stepGives (machine 0 (regs017 15 17 0xF4) [(0, 0xA2#8), (2, 0x01#8)]) (fun t => (t.reg 0, t.reg 1)) =
      some (255#8, 17#8) := by decide

/-- M10: source and destination the same, 44 * 44 wraps. -/
theorem test_mul_square :
    stepGives (machine 0 (regs017 44 0 0xF4) [(0, 0xA2#8)]) (fun t => (t.reg 0, t.pc)) = some (144#8, 3) := by decide

/-- PU3: the stack pointer reaches 0 and the program's own cell is overwritten. -/
theorem test_push :
    stepGives (machine 0 (regs017 0x11 0 1) [(0, 0x45#8)]) (fun t => (t.reg 7, t.mem, t.pc)) =
      some (0#8, [(0, 0x11#8)], 2) := by decide

/-- PU5: PUSH r7 with the pointer at 0. -/
theorem test_push_sp :
    stepGives (machine 0 (regs017 0 0 0) [(0, 0x45#8), (1, 0x07#8)]) (fun t => (t.reg 7, t.mem.read 255)) =
      some (0xFF#8, 0xFF#8) := by decide

/-- PO2: the pointer wraps from 255 to 0. -/
theorem test_pop :
    stepGives (machine 0 (regs017 0 0 0xFF) [(0, 0x46#8), (255, 0x2A#8)]) (fun t => (t.reg 0, t.reg 7, t.pc)) =
      some (0x2A#8, 0#8, 2) := by decide

/-- PO4: POP r7 leaves the popped byte plus one. -/
theorem test_pop_sp :
    stepGives (machine 0 (regs017 0 0 0xF3) [(0, 0x46#8), (1, 0x07#8), (0xF3, 0x10#8)]) (fun t => t.reg 7) =
      some 0x11#8 := by decide

/-- CA2: CALL at 254 pushes 0, so the cell it writes is listed no more. -/
theorem test_call_at_254 :
    stepGives (machine 254 (regs017 0 0x20 0xF4) [(0xF3, 0x55#8), (254, 0x50#8), (255, 0x01#8)])
      (fun t => (t.reg 7, t.mem, t.pc)) = some (0xF3#8, [(254, 0x50#8), (255, 0x01#8)], 0x20) := by decide

/-- CA7: CALL overwrites its own operand and jumps through the latched one. -/
theorem test_call_latched :
    stepGives (machine 3 (regs017 0 3 5) [(3, 0x50#8), (4, 0x01#8)]) (fun t => (t.reg 7, t.mem.read 4, t.pc)) =
      some (4#8, 5#8, 3) := by decide

/-- RT4, FD12: RET at 255 reads no operand. -/
theorem test_ret_at_255 :
    stepGives (machine 255 (regs017 0 0 0xF3) [(0xF3, 0x07#8), (255, 0x11#8)]) (fun t => (t.pc, t.reg 7)) =
      some (7, 0xF4#8) := by decide

/-- RT3: RET on the empty stack. -/
theorem test_ret_empty_stack :
    stepGives (machine 9 (regs017 0 0 0xF4) [(9, 0x11#8)]) (fun t => (t.pc, t.reg 7)) = some (0, 0xF5#8) := by decide

/-- FD1, FD7, FD9: the first failing check is the one reported. -/
theorem test_fault_order :
    stepGives (machine 256 (regs017 0 0 0xF4) []) (fun t => t.fault) =
      some (some { cause := .outOfBounds .fetch 256, fpc := 256 }) ∧
    stepGives (machine 255 (regs017 0 0 0xF4) [(255, 0xFF#8)]) (fun t => t.fault) =
      some (some { cause := .unknownInstruction 0xFF#8, fpc := 255 }) ∧
    stepGives (machine 255 (regs017 0 0 0xF4) [(255, 0x82#8)]) (fun t => t.fault) =
      some (some { cause := .outOfBounds .operand 256, fpc := 255 }) := by decide

/-- FD14: no step in HALTED. -/
theorem test_no_step_when_halted : step (State.reset.halt) = .fault .engineHalted := rfl

/-- R243, R246: the empty image faults on its first step; a placed word runs as the first instruction. -/
theorem test_first_step :
    (load (some [])).toOption.bind (fun s => stepGives s fun t => t.fault) =
      some (some { cause := .unknownInstruction 0x00#8, fpc := 0 }) ∧
    stepGives (State.reset.withFetchWord 24 0x080082) (fun t => (t.reg 0, t.pc)) = some (8#8, 3) := by decide

/-- R137, PR3: three digits, two digits, one digit. -/
theorem test_decimal : decimalText 255 = ['2', '5', '5'] ∧ decimalText 72 = ['7', '2'] ∧ decimalText 0 = ['0'] := by
  decide

/-! ### Witnesses: the hypotheses of each obligation can be met -/

/-- LDI r0 7 in the last three cells. -/
def ldiAt253 : State := machine 253 (regs017 0 0 0xF4) [(253, 0x82#8), (255, 0x07#8)]

theorem legal_of_running {s : State} (hm : s.mem.wf = true) (hp : s.pc ≤ 256) (hf : s.fault = none)
    (hr : s.runState = .running) : s.Legal :=
  ⟨hm, hp, by simp [hf, hr], by simp [hf]⟩

theorem witness_DecodeInvertsEncode : decode [0xA0#8, 0xFF#8, 0x08#8, 0x01#8] = .ok (.add 0xFF 8, [0x01#8]) := rfl

theorem witness_AssemblySpellingIsUnambiguous :
    assemblyText (.ldi 7 255) = some ['L', 'D', 'I', ' ', 'r', '7', ' ', '2', '5', '5'] ∧ assemblyText (.prn 8) = none := by
  decide

theorem witness_StepKeepsLegal : ldiAt253.Legal ∧ ∃ t, step ldiAt253 = .next t :=
  ⟨legal_of_running (by decide) (by decide) rfl rfl, _, rfl⟩

theorem witness_MemoryContract : (256 : Nat) ≤ 256 ∧ (255 : Nat) < 256 := by decide

theorem witness_StatusPort : State.reset.runState = .running ∧ State.reset.halt.runState = .halted := by decide

/-- At 253 no byte is absent, at 254 and 255 the ones past 255 are (R232, D15), at 256 the one at `pc` too (log
entry 19). -/
theorem witness_TraceShowsAbsentBytes :
    [253, 254, 255, 256].map (fun pc => (traceView (machine pc (regs017 0 0 0xF4) [(254, 0x50#8)])).2.1) =
      [[some 0#8, some 0x50#8, some 0#8], [some 0x50#8, some 0#8, none], [some 0#8, none, none], [none, none, none]] ∧
    (traceView (machine 256 (regs017 0 0 0xF4) [])).2.2 = [0#8, 0#8, 0#8, 0#8, 0#8, 0#8, 0#8, 0xF4#8] := by decide

theorem witness_RegisterIndexCheck : 8 ≤ (8#8).toNat ∧ (7#8).toNat < 8 := by decide

theorem witness_EngineStepsExactlyWhenRunning :
    State.reset.runState = .running ∧ State.reset.halt.runState = .halted ∧
    (raise (.unknownInstruction 0) State.reset).runState = .faulted := by decide

theorem witness_RunHasOneEnd :
    (runFor 1 State.reset).ended = true ∧ (runFor 3 State.reset).ended = true := by decide

theorem witness_OpcodeFetch :
    (machine 256 (regs017 0 0 0xF4) []).runState = .running ∧ 256 ≤ (machine 256 (regs017 0 0 0xF4) []).pc ∧
    ldiAt253.pc < 256 ∧ ∃ i t, fetchInstr ldiAt253 = .ok (i, t) :=
  ⟨rfl, by decide, by decide, _, _, rfl⟩

theorem witness_UnknownOpcodeRaises :
    ((machine 255 (regs017 0 0 0xF4) [(255, 0xFF#8)]).runState = .running ∧
      ∀ op : Opcode, (machine 255 (regs017 0 0 0xF4) [(255, 0xFF#8)]).mem.read 255 ≠ op.byte) ∧
    ldiAt253.runState = .running ∧ ldiAt253.pc < 256 ∧ ldiAt253.mem.read ldiAt253.pc = Opcode.ldi.byte ∧ ∃ i t, fetchInstr ldiAt253 = .ok (i, t) :=
  ⟨⟨rfl, fun op => by cases op <;> decide⟩, rfl, by decide, rfl, _, _, rfl⟩

/-- The clauses of FaultPriority, each at an edge: `pc` = 256, an unknown byte at 255, a 3-byte opcode at 254, then LDI
at 253 with a bad `a`, ADD with a bad `b` alone, and LDI with good operands. -/
theorem witness_FaultPriority :
    256 ≤ (machine 256 (regs017 0 0 0xF4) []).pc ∧
    decodeOpcode ((machine 255 (regs017 0 0 0xF4) [(255, 0xFF#8)]).mem.read 255) = none ∧
    (decodeOpcode ((machine 254 (regs017 0 0 0xF4) [(254, 0x82#8)]).mem.read 254) = some .ldi ∧
      256 < 254 + Opcode.ldi.width) ∧
    (decodeOpcode (ldiAt253.mem.read 253) = some .ldi ∧ ldiAt253.pc + Opcode.ldi.width ≤ 256) ∧
    (Opcode.ldi.instr 8 0).registerOperands.find? (fun b => !namesRegister b) = some 8 ∧
    (Opcode.add.instr 7 200).registerOperands.find? (fun b => !namesRegister b) = some 200 ∧
    (Opcode.ldi.instr 7 8).wellFormed = true := by decide

theorem witness_StepRunsDecodedInstruction :
    ldiAt253.runState = .running ∧ decode (codeBytes ldiAt253) = .ok (.ldi 0 7, []) := ⟨rfl, rfl⟩

/-- A step that completes, one that halts, one that faults. -/
theorem witness_StepIsAllOrNothing :
    (stepGives ldiAt253 fun t => t.runState) = some .running ∧
    (stepGives (machine 255 (regs017 0 0 0xF4) [(255, 0x01#8)]) fun t => t.runState) = some .halted ∧
    (stepGives State.reset fun t => t.runState) = some .faulted := by decide

theorem witness_UnsupportedOperationUnreachable :
    (stepGives State.reset fun t => decide (t.fault ≠ State.reset.fault)) = some true := by decide

/-- Two states that differ in hidden registers only. -/
theorem witness_HiddenRegistersAreUnobservable :
    SameArchitecture ldiAt253 (ldiAt253.latchIr 0xFF#8) ∧ ldiAt253 ≠ ldiAt253.latchIr 0xFF#8 :=
  ⟨⟨rfl, rfl, rfl, rfl, rfl, rfl⟩, by decide⟩

theorem witness_OutputIsAppendOnly :
    (stepGives (machine 254 (regs017 9 0 0xF4) [(254, 0x47#8)]) fun t => t.out) = some [9#8] := by decide

theorem witness_ProgramCounterUpdate :
    [Instr.hlt, .ldi 7 255, .prn 7, .add 7 0, .mul 0 7, .push 7, .pop 7, .call 7, .ret].all (fun i =>
      i.wellFormed && (nextOf (exec i State.reset)).isSome) = true := by decide

theorem witness_BadRegisterOperandRaises :
    (Instr.push 8).registerOperands.find? (fun b => !namesRegister b) = some 8 ∧
    (Instr.mul 7 255).registerOperands.find? (fun b => !namesRegister b) = some 255 := by decide

def hltAt255 : State := machine 255 (regs017 0 0 0xF4) [(255, 0x01#8)]

theorem witness_HltEndsTheRun :
    hltAt255.runState = .running ∧ hltAt255.pc < 256 ∧ hltAt255.mem.read hltAt255.pc = 0x01#8 := by decide

/-- One operand that names a register, at the edge, for every obligation whose hypothesis is that alone. -/
theorem witness_LdiResult : (7#8).toNat < 8 := by decide
theorem witness_PrnResult : (7#8).toNat < 8 := by decide
theorem witness_AluResult : (7#8).toNat < 8 ∧ (0#8).toNat < 8 ∧ (7#8) ≠ (0#8) := by decide
theorem witness_PushResult : (7#8).toNat < 8 := by decide
theorem witness_CallResult : (7#8).toNat < 8 := by decide

/-- Both clauses of PopResult. -/
theorem witness_PopResult : (7#8).toNat < 8 ∧ (6#8).toNat < 8 ∧ (6#8) ≠ (7#8) := by decide

/-- The premises of the obligations about a given opcode byte at `pc`. -/
def runsByte (s : State) (ir : Byte) : Bool :=
  decide (s.runState = .running) && decide (s.pc < 256) && decide (s.mem.read s.pc = ir)

/-- The operand bytes in memory after the opcode byte. -/
def operandA (s : State) : Nat := (s.mem.read (s.pc + 1)).toNat
def operandB (s : State) : Nat := (s.mem.read (s.pc + 2)).toNat

def ldiAt254 : State := machine 254 (regs017 0 0 0xF4) [(254, 0x82#8)]
def ldiBadA : State := machine 253 (regs017 0 0 0xF4) [(253, 0x82#8), (254, 0x08#8)]

/-- LDI at 254; at 253 with `a` = 8; at 253 with `a` = 0. -/
theorem witness_LdiStep :
    (runsByte ldiAt254 0x82#8 = true ∧ 254 ≤ ldiAt254.pc) ∧
    (runsByte ldiBadA 0x82#8 = true ∧ ldiBadA.pc ≤ 253 ∧ 8 ≤ operandA ldiBadA) ∧
    (runsByte ldiAt253 0x82#8 = true ∧ ldiAt253.pc ≤ 253 ∧ operandA ldiAt253 < 8) := by decide

def addAt254 : State := machine 254 (regs017 0 0 0xF4) [(254, 0xA0#8)]
def mulBadA : State := machine 253 (regs017 0 0 0xF4) [(253, 0xA2#8), (254, 8#8)]
def mulBadB : State := machine 253 (regs017 0 0 0xF4) [(253, 0xA2#8), (254, 7#8), (255, 8#8)]
def addGood : State := machine 253 (regs017 0 0 0xF4) [(253, 0xA0#8), (254, 7#8), (255, 7#8)]

/-- ADD at 254; MUL at 253 with `a` = 8; with `b` = 8 alone; ADD at 253 with both operands 7. -/
theorem witness_AddMulStep :
    (runsByte addAt254 0xA0#8 = true ∧ 254 ≤ addAt254.pc) ∧
    (runsByte mulBadA 0xA2#8 = true ∧ mulBadA.pc ≤ 253 ∧ 8 ≤ operandA mulBadA) ∧
    (runsByte mulBadB 0xA2#8 = true ∧ mulBadB.pc ≤ 253 ∧ operandA mulBadB < 8 ∧ 8 ≤ operandB mulBadB) ∧
    (runsByte addGood 0xA0#8 = true ∧ addGood.pc ≤ 253 ∧ operandA addGood < 8 ∧ operandB addGood < 8) := by decide

theorem witness_StackPointerMovesByOne :
    (∃ t, exec (.push 7) (machine 0 (regs017 0 0 0) []) = .next t) ∧
    (∃ t, exec (.call 7) (machine 0 (regs017 0 0 0) []) = .next t) ∧
    (∃ t, exec (.pop 6) (machine 0 (regs017 0 0 255) []) = .next t) ∧
    ∃ t, exec .ret (machine 0 (regs017 0 0 255) []) = .next t :=
  ⟨⟨_, rfl⟩, ⟨_, rfl⟩, ⟨_, rfl⟩, ⟨_, rfl⟩⟩

theorem witness_PushPopLaw : (0#8).toNat < 8 ∧ (6#8).toNat < 8 ∧ (6#8) ≠ (7#8) ∧ (0#8) ≠ (7#8) := by decide

/-- PUSH r0 at 0 with the pointer at 3 stores HLT's opcode in cell 2, where the next instruction begins. -/
theorem witness_StoredByteIsFetched :
    ∃ t, exec (.push 0) (machine 0 (regs017 1 0 3) [(0, 0x45#8)]) = .next t ∧
      t.pc = stackAddress (machine 0 (regs017 1 0 3) [(0, 0x45#8)]).decSp ∧ ∃ i u, fetchInstr t = .ok (i, u) :=
  ⟨_, rfl, rfl, _, _, rfl⟩

def callAt255 : State := machine 255 (regs017 0 0 0xF4) [(255, 0x50#8)]
def callAt254 : State := machine 254 (regs017 0 0 0xF4) [(254, 0x50#8), (255, 0x07#8)]
def callAt253 : State := machine 253 (regs017 0 0 0xF4) [(253, 0x50#8), (254, 0x07#8)]

/-- CALL at 255, at 254 and at 253. -/
theorem witness_ReturnAddressPushed :
    (runsByte callAt255 0x50#8 = true ∧ callAt255.pc = 255) ∧
    (runsByte callAt254 0x50#8 = true ∧ callAt254.pc = 254 ∧ operandA callAt254 < 8) ∧
    (runsByte callAt253 0x50#8 = true ∧ callAt253.pc ≤ 253 ∧ operandA callAt253 < 8) := by decide

def ownOperandAt3 : State := machine 3 (regs017 0 3 5) [(3, 0x50#8), (4, 0x01#8)]
def ownOperandAt254 : State := machine 254 (regs017 0 3 0) [(254, 0x50#8), (255, 0x01#8)]

/-- CA7's state, and the edge: CALL at 254 with the pointer at 0. -/
theorem witness_CallUsesLatchedOperand :
    (runsByte ownOperandAt3 0x50#8 = true ∧ operandA ownOperandAt3 < 8 ∧ ownOperandAt3.pc ≤ 254 ∧
      stackAddress ownOperandAt3.decSp = ownOperandAt3.pc + 1) ∧
    (runsByte ownOperandAt254 0x50#8 = true ∧ operandA ownOperandAt254 < 8 ∧ ownOperandAt254.pc ≤ 254 ∧
      stackAddress ownOperandAt254.decSp = ownOperandAt254.pc + 1) := by decide

def callToRet : State := machine 253 (regs017 0 11 0xF4) [(11, 0x11#8), (253, 0x50#8), (254, 0x01#8)]

/-- A CALL at 253 through r1 to a RET at 11. -/
theorem witness_CallReturnLaw :
    runsByte callToRet 0x50#8 = true ∧ callToRet.pc ≤ 253 ∧ operandA callToRet < 8 ∧
    (stepGives callToRet fun t => t.mem.read t.pc) = some 0x11#8 := by decide

/-- Every form the frames speak of answers a next state, with a good operand and with a bad one. -/
theorem witness_RegisterInstructionFrame :
    [Instr.ldi 7 1, .add 7 6, .mul 7 6, .ldi 8 1, .add 0 8, .mul 8 0].all (fun i =>
      (nextOf (exec i State.reset)).isSome) = true := by decide
theorem witness_HltPrnFrame :
    [Instr.hlt, .prn 7, .prn 8].all (fun i => (nextOf (exec i State.reset)).isSome) = true := by decide
theorem witness_StoringInstructionFrame :
    [Instr.push 7, .call 7, .push 8, .call 8].all (fun i => (nextOf (exec i State.reset)).isSome) = true := by decide
theorem witness_PoppingInstructionFrame :
    [Instr.pop 7, .ret, .pop 8].all (fun i => (nextOf (exec i State.reset)).isSome) = true := by decide
theorem witness_AccessRegistersShowStackAccess :
    [Instr.push 7, .call 7, .pop 7, .ret].all (fun i => (nextOf (exec i State.reset)).isSome) = true := by decide

/-- An image of 256 bytes loads, one of 257 is refused. -/
theorem witness_LoadWritesTheImage :
    (List.replicate 256 0#8).length ≤ 256 ∧ 256 < (List.replicate 257 0#8).length :=
  ⟨by rw [List.length_replicate], by rw [List.length_replicate]; decide⟩

/-- A placed word at the top of memory, where the instruction fits and where it does not. -/
theorem witness_PlacedWordRuns :
    decodeTableWord 24 0x070082 = some (.ldi 0 7) ∧
    (stepGives ((machine 253 (regs017 0 0 0xF4) []).withFetchWord 24 0x070082) fun t => (t.reg 0, t.pc)) =
      some (7#8, 256) ∧
    (stepGives ((machine 254 (regs017 0 0 0xF4) []).withFetchWord 24 0x070082) fun t => (t.reg 0, t.pc)) =
      some (7#8, 3) := by decide

end Sys2Proof.Tests
end

section
/-!
SUPPORT. The output sequence is written by appending and never read (10_state.md R33): a step from a state with another
output does the same and appends the same.
-/

namespace Sys2Proof.Machine

/-- The state with another output sequence. -/
def State.withOut (s : State) (out : List Byte) : State := { s with out := out }

/-- The outcome with another output sequence in its next state. -/
def outcomeWithOut (o : Host.Outcome State Fault Refusal) (out : List Byte) : Host.Outcome State Fault Refusal :=
  match o with
  | .next t => .next (t.withOut out)
  | .fault f => .fault f
  | .refused r => .refused r

variable {s t : State} {i : Instr} {a : Byte} (out : List Byte)

@[simp] theorem State.pc_withOut : (s.withOut out).pc = s.pc := rfl
@[simp] theorem State.mem_withOut : (s.withOut out).mem = s.mem := rfl
@[simp] theorem State.out_withOut : (s.withOut out).out = out := rfl
@[simp] theorem afterFetch_withOut (op : Opcode) :
    afterFetch (s.withOut out) op = (afterFetch s op).withOut out := rfl

/-- A register check reads no output, if what follows it reads none. -/
theorem withReg_withOut {k k' : RegIndex → Host.Outcome State Fault Refusal}
    (h : ∀ r, k' r = outcomeWithOut (k r) out) :
    withReg a (s.withOut out) k' = outcomeWithOut (withReg a s k) out := by
  unfold withReg
  cases regIndex a with
  | error cause => rfl
  | ok r => exact h r

/-- Every instruction but PRN leaves the output alone and does not read it. -/
theorem exec_withOut_of_ne_prn (hi : i.opcode ≠ .prn) :
    exec i (s.withOut out) = outcomeWithOut (exec i s) out := by
  cases i with
  | hlt => rfl
  | prn a => exact absurd rfl hi
  | ldi a b => exact withReg_withOut out fun _ => rfl
  | add a b => exact withReg_withOut out fun _ => withReg_withOut out fun _ => rfl
  | mul a b => exact withReg_withOut out fun _ => withReg_withOut out fun _ => rfl
  | push a => exact withReg_withOut out fun _ => rfl
  | pop a => exact withReg_withOut out fun _ => rfl
  | call a => exact withReg_withOut out fun _ => rfl
  | ret => rfl

/-- The fetch reads no output: it fails with the same cause, or it gives the same instruction. -/
theorem fetchInstr_withOut :
    fetchInstr (s.withOut out) = (fetchInstr s).map fun p => (p.1, p.2.withOut out) := by
  by_cases hpc : 256 ≤ s.pc
  · simp [fetchInstr_eq, hpc, Except.map]
  · cases hop : decodeOpcode (s.mem.read s.pc) with
    | none => simp [fetchInstr_eq, hpc, hop, Except.map]
    | some op =>
      by_cases hw : 256 < s.pc + op.width
      · simp [fetchInstr_eq, hpc, hop, hw, Except.map]
      · simp [fetchInstr_eq, hpc, hop, hw, Except.map]

/-- A fetch completes when the opcode byte is known and the instruction lies in memory. -/
theorem fetchInstr_of_decodeOpcode {op : Opcode} (hw : s.pc + op.width ≤ 256)
    (hop : decodeOpcode (s.mem.read s.pc) = some op) :
    fetchInstr s = .ok (op.instr (s.mem.read (s.pc + 1)) (s.mem.read (s.pc + 2)), afterFetch s op) := by
  have hpc : ¬ 256 ≤ s.pc := by simp only [Opcode.width] at hw; omega
  simp [fetchInstr_eq, hpc, hop, Nat.not_lt.mpr hw]

/-- From `s` to `t` the outcome `f` appends `app` to the output, whatever that holds: with any other output before it,
it answers the same state with the same values appended. -/
def AppendsOutput (f : State → Host.Outcome State Fault Refusal) (s t : State) (app : List Byte) : Prop :=
  ∀ out : List Byte, f (s.withOut out) = .next (t.withOut (out ++ app))

/-- What is appended whatever the output holds is appended to the output there is. -/
theorem AppendsOutput.out_eq {f : State → Host.Outcome State Fault Refusal} {app : List Byte}
    (h : AppendsOutput f s t app) (hs : f s = .next t) : t.out = s.out ++ app := by
  have same : t = t.withOut (s.out ++ app) := Host.Outcome.next.inj (hs.symm.trans (h s.out))
  exact congrArg State.out same

/-! ### The execute phase -/

theorem exec_appends_nil (hi : i.opcode ≠ .prn) (h : exec i s = .next t) : AppendsOutput (exec i) s t [] := by
  intro out
  rw [exec_withOut_of_ne_prn out hi, h, List.append_nil]
  rfl

/-- PRN, by its register operand: it completes and appends the register's value, or it faults and appends nothing. -/
theorem exec_prn_output (hs : s.runState = .running) (h : exec (.prn a) s = .next t) :
    (t.runState ≠ .faulted ∧ ∃ r : RegIndex, r.val = a.toNat ∧ AppendsOutput (exec (.prn a)) s t [s.reg r]) ∨
    (t.runState = .faulted ∧ AppendsOutput (exec (.prn a)) s t []) := by
  rcases withReg_cases h with ⟨ha, ht⟩ | ⟨ha, ht⟩
  · cases ht
    exact .inl ⟨by simp [hs], ⟨a.toNat, ha⟩, rfl, fun _ => exec_prn _ ha⟩
  · subst ht
    exact .inr ⟨rfl, fun out => by rw [List.append_nil]; exact withReg_of_ge ha _⟩

/-! ### The step -/

/-- A step appends what the execute phase of the instruction it fetches appends. -/
theorem step_appends_of_fetch {s' : State} {app : List Byte} (hr : s.runState = .running)
    (hf : fetchInstr s = .ok (i, s')) (h : AppendsOutput (exec i) s' t app) : AppendsOutput step s t app := by
  intro out
  have hf' : fetchInstr (s.withOut out) = .ok (i, s'.withOut out) := by rw [fetchInstr_withOut, hf]; rfl
  exact (step_of_fetch (s := s.withOut out) hr hf').trans (h out)

/-- A step whose fetch fails appends nothing. -/
theorem step_appends_nil_of_error {cause : FaultCause} (hr : s.runState = .running)
    (hf : fetchInstr s = .error cause) : AppendsOutput step s (raise cause s) [] := by
  intro out
  have hf' : fetchInstr (s.withOut out) = .error cause := by rw [fetchInstr_withOut, hf]; rfl
  rw [step_of_error (s := s.withOut out) hr hf', List.append_nil]
  rfl

/-- Every step, by what it appends: a completed PRN its register's value, every other step nothing. -/
theorem step_output_cases (h : step s = .next t) :
    (t.runState ≠ .faulted ∧ s.mem.read s.pc = 0x47#8 ∧
      ∃ r : RegIndex, r.val = (s.mem.read (s.pc + 1)).toNat ∧ AppendsOutput step s t [s.reg r]) ∨
    ((t.runState = .faulted ∨ s.mem.read s.pc ≠ 0x47#8) ∧ AppendsOutput step s t []) := by
  obtain ⟨hr, ⟨cause, hf, rfl⟩ | ⟨op, hw, hop, hx⟩⟩ := step_cases h
  · exact .inr ⟨.inl rfl, step_appends_nil_of_error hr hf⟩
  · have hf : fetchInstr s = .ok (_, _) := fetchInstr_of_decodeOpcode hw hop
    by_cases hprn : op = .prn
    · subst hprn
      have hbyte : s.mem.read s.pc = 0x47#8 := byte_of_decodeOpcode hop
      rcases exec_prn_output (s := afterFetch s .prn) hr hx with ⟨hrun, r, hindex, happ⟩ | ⟨hfault, happ⟩
      · exact .inl ⟨hrun, hbyte, r, hindex, step_appends_of_fetch hr hf happ⟩
      · exact .inr ⟨.inl hfault, step_appends_of_fetch hr hf happ⟩
    · have hne : s.mem.read s.pc ≠ 0x47#8 := by
        intro h47
        rw [h47] at hop
        exact hprn (Option.some.inj hop).symm
      exact .inr ⟨.inr hne, step_appends_of_fetch hr hf (exec_appends_nil (by simpa using hprn) hx)⟩

end Sys2Proof.Machine
end

section
/-!
The statements about the state (10_state.md).
-/

namespace Sys2Proof.Machine

/-- Settles O24: each case of `step_output_cases` says what is appended, from every output sequence. -/
theorem outputIsAppendOnly : Obligations.OutputIsAppendOnly := by
  refine ⟨rfl, fun s t h => ?_⟩
  rcases step_output_cases h with ⟨hrun, hbyte, r, hr, happ⟩ | ⟨hquiet, happ⟩
  · have hout : t.out = s.out ++ [s.reg r] := happ.out_eq h
    refine ⟨.inl ⟨hrun, hbyte, r, hr, hout⟩, fun out => ?_⟩
    rw [hout, List.drop_left]
    exact happ out
  · have hout : t.out = s.out := by simpa using happ.out_eq h
    refine ⟨.inr ⟨hquiet, hout⟩, fun out => ?_⟩
    rw [hout, List.drop_length]
    exact happ out

/-- Settles O8: each field of the reset state is a literal, and its memory lists no cell. -/
theorem resetState : Obligations.ResetState := by
  have registers : ∀ r : RegIndex, (State.reset.reg r).toNat = if r = 7 then 0xF4 else 0 := by decide
  exact ⟨registers, rfl, fun _ => rfl, rfl, rfl, rfl⟩

/-- Settles O11, by the two branches of `regIndex`. -/
theorem registerIndexCheck : Obligations.RegisterIndexCheck :=
  fun _ => ⟨regIndex_of_ge, fun hb => ⟨_, regIndex_of_lt hb, rfl⟩⟩

end Sys2Proof.Machine
end

section
/-!
SUPPORT. The write primitive of the memory contract (20_memory.md R52, R53), and what an access leaves unchanged.
-/

namespace Sys2Proof.Machine

variable {s : State}

theorem memWrite_of_lt (cls : AccessClass) {addr : Nat} (v : Nat) (h : addr < 256) :
    memWrite cls addr v s =
      .ok { s.latchAccess (BitVec.ofNat 8 addr) (BitVec.ofNat 8 v) with
        mem := s.mem.write addr (BitVec.ofNat 8 v) } := by
  simp [memWrite, Memory.writeChecked, h]

theorem memWrite_of_ge (cls : AccessClass) {addr : Nat} (v : Nat) (h : 256 ≤ addr) :
    memWrite cls addr v s = .error (.outOfBounds cls addr) := by
  simp [memWrite, Memory.writeChecked, Nat.not_lt.mpr h]

/-- MAR and MDR are not architectural (10_state.md R35). -/
theorem sameArchitecture_latchAccess (addr v : Byte) : SameArchitecture s (s.latchAccess addr v) :=
  ⟨rfl, rfl, rfl, rfl, rfl, rfl⟩

end Sys2Proof.Machine
end

section
/-!
The statements about the memory contract (20_memory.md).
-/

namespace Sys2Proof.Machine

/-- Settles O12, by the side of 256 the address lies on; what memory holds after the write is `Memory.read_write`. -/
theorem memoryContract : Obligations.MemoryContract := by
  refine fun cls a v s => ⟨fun ha => ⟨memRead_of_ge cls ha, memWrite_of_ge cls v ha⟩, fun ha => ⟨?read, ?write⟩⟩
  case read => exact ⟨_, memRead_of_lt cls ha, sameArchitecture_latchAccess _ _⟩
  case write =>
    have stored : ((s.mem.write a (BitVec.ofNat 8 v)).read a).toNat = v % 256 := by simp [Memory.read_write]
    have kept : ∀ b, b ≠ a → (s.mem.write a (BitVec.ofNat 8 v)).read b = s.mem.read b := by
      intro b hb
      simp [Memory.read_write, hb]
    exact ⟨_, memWrite_of_lt cls v ha, stored, kept, rfl, rfl, ⟨rfl, rfl⟩, rfl⟩

end Sys2Proof.Machine
end

section
/-!
SUPPORT. The rows of R82's table, and the literal match of the opcode byte read both ways (30_encoding.md R82, R83).
-/

namespace Sys2Proof

variable {ir : Byte} {op : Opcode} {width : Nat}

theorem decodeOpcode_eq_some_iff : decodeOpcode ir = some op ↔ ir = op.byte :=
  ⟨byte_of_decodeOpcode, fun h => h ▸ decodeOpcode_byte op⟩

theorem decodeOpcode_eq_none_iff : decodeOpcode ir = none ↔ ∀ op : Opcode, ir ≠ op.byte := by
  simp only [Option.eq_none_iff_forall_ne_some, ne_eq, decodeOpcode_eq_some_iff]

/-- R82's rows: opcode byte, mnemonic, width. -/
def opcodeTable : List (Byte × Opcode × Nat) :=
  [(0x01#8, .hlt, 1), (0x82#8, .ldi, 3), (0x47#8, .prn, 2), (0xA0#8, .add, 3), (0xA2#8, .mul, 3),
   (0x45#8, .push, 2), (0x46#8, .pop, 2), (0x50#8, .call, 2), (0x11#8, .ret, 1)]

/-- The rows are the opcodes, one each: every opcode has its row, and no row says anything else. -/
theorem mem_opcodeTable_iff : (ir, op, width) ∈ opcodeTable ↔ ir = op.byte ∧ op.width = width := by
  constructor
  · have rows : ∀ row ∈ opcodeTable, row.1 = row.2.1.byte ∧ row.2.1.width = row.2.2 := by decide
    exact rows (ir, op, width)
  · rintro ⟨rfl, rfl⟩
    cases op <;> decide

end Sys2Proof

namespace Sys2Proof.Machine

variable {s : State}

/-- Inside memory, the fetch of a byte that is no opcode fails with that byte, whatever bytes follow it. -/
theorem fetchInstr_of_decodeOpcode_none (hpc : s.pc < 256) (hop : decodeOpcode (s.mem.read s.pc) = none) :
    fetchInstr s = .error (.unknownInstruction (s.mem.read s.pc)) := by
  simp [fetchInstr_eq, Nat.not_le.mpr hpc, hop]

/-- A fetched instruction's opcode is the one the byte at `pc` decodes to. -/
theorem decodeOpcode_of_fetchInstr {t : State} {i : Instr} (h : fetchInstr s = .ok (i, t)) :
    decodeOpcode (s.mem.read s.pc) = some i.opcode := by
  obtain ⟨op, -, hop, rfl, -⟩ := fetchInstr_ok h
  rw [hop, Opcode.opcode_instr]

end Sys2Proof.Machine
end

section
/-!
The statements about encoding and decoding (30_encoding.md).
-/

namespace Sys2Proof.Machine

/-- Settles O1: a matched byte is its opcode's own, and each row of the table holds an opcode's own byte and width. -/
theorem opcodeMapIsTheTable : Obligations.OpcodeMapIsTheTable := by
  refine ⟨fun ir op width => ?rows, fun a b => ⟨rfl, rfl, rfl, rfl, rfl, rfl, rfl, rfl, rfl⟩⟩
  case rows => exact (and_congr_left' decodeOpcode_eq_some_iff).trans mem_opcodeTable_iff.symm

/-- Settles O17: a byte that is no opcode's own fails the match, and a fetched instruction has the matched opcode. -/
theorem unknownOpcodeRaises : Obligations.UnknownOpcodeRaises := by
  refine fun s hr hpc => ⟨fun hne => ?unknown, fun op i t hbyte hf => ?known⟩
  case unknown => exact step_of_error hr (fetchInstr_of_decodeOpcode_none hpc (decodeOpcode_eq_none_iff.mpr hne))
  case known =>
    have matched : decodeOpcode (s.mem.read s.pc) = some op := decodeOpcode_eq_some_iff.mpr hbyte
    exact Option.some.inj ((decodeOpcode_of_fetchInstr hf).symm.trans matched)

end Sys2Proof.Machine
end

section
/-!
SUPPORT. The opcode fetch on either side of the end of memory (40_cycle.md R111), and the register operands of a
well-formed instruction (10_state.md R22).
-/

namespace Sys2Proof

@[simp] theorem namesRegister_iff {b : Byte} : namesRegister b = true ↔ b.toNat < 8 := decide_eq_true_iff

theorem Instr.wellFormed_iff {i : Instr} : i.wellFormed = true ↔ ∀ b ∈ i.registerOperands, b.toNat < 8 := by
  simp [Instr.wellFormed]

end Sys2Proof

namespace Sys2Proof.Machine

variable {s t u : State} {i : Instr}

theorem fetchInstr_of_pc_ge (hpc : 256 ≤ s.pc) : fetchInstr s = .error (.outOfBounds .fetch s.pc) := by
  simp [fetchInstr_eq, hpc]

/-- A completed fetch has latched the byte at `pc`. -/
theorem ir_of_fetchInstr (h : fetchInstr s = .ok (i, t)) : t.hidden.ir = s.mem.read s.pc := by
  obtain ⟨op, -, -, -, rfl⟩ := fetchInstr_ok h
  rfl

/-- The execute phase answers one state, so one program counter. -/
theorem pc_eq_of_exec (ht : exec i s = .next t) (hu : exec i s = .next u) : t.pc = u.pc :=
  congrArg State.pc (Host.Outcome.next.inj (ht.symm.trans hu))

/-- Only register 7 is moved by the decrement of the stack pointer. -/
theorem State.reg_decSp_of_ne {q : RegIndex} (hq : q ≠ spIndex) : s.decSp.reg q = s.reg q := by
  simp [hq]

end Sys2Proof.Machine
end

section
/-!
The statements about the instruction cycle (40_cycle.md).
-/

namespace Sys2Proof.Machine

/-- Settles O25, by the instruction: each one's meaning with good operands says where it leaves `pc`. CALL reads its
register after the decrement, which only r7 shows. -/
theorem programCounterUpdate : Obligations.ProgramCounterUpdate := by
  intro i s t hwf h
  have good := Instr.wellFormed_iff.mp hwf
  cases i with
  | hlt => exact pc_eq_of_exec h (exec_hlt s)
  | ldi a b => exact pc_eq_of_exec h (exec_ldi s (good a (.head _)))
  | prn a => exact pc_eq_of_exec h (exec_prn s (good a (.head _)))
  | add a b => exact pc_eq_of_exec h (exec_add s (good a (.head _)) (good b (.tail _ (.head _))))
  | mul a b => exact pc_eq_of_exec h (exec_mul s (good a (.head _)) (good b (.tail _ (.head _))))
  | push a => exact pc_eq_of_exec h (exec_push s (good a (.head _)))
  | pop a => exact pc_eq_of_exec h (exec_pop s (good a (.head _)))
  | call a =>
    intro ha7
    have ha : a.toNat < 8 := good a (.head _)
    have notSp : (⟨a.toNat, ha⟩ : RegIndex) ≠ spIndex := by
      intro hsp
      have h7 : a.toNat = 7 := congrArg Fin.val hsp
      exact ha7 (BitVec.eq_of_toNat_eq h7)
    refine ⟨⟨a.toNat, ha⟩, rfl, ?_⟩
    rw [← State.reg_decSp_of_ne notSp]
    exact pc_eq_of_exec h (exec_call s ha)
  | ret => exact pc_eq_of_exec h (exec_ret s)

/-- Settles O16, by the side of 256 `pc` lies on. -/
theorem opcodeFetch : Obligations.OpcodeFetch :=
  fun _ hr => ⟨fun hpc => step_of_error hr (fetchInstr_of_pc_ge hpc), fun _ _ _ => ir_of_fetchInstr⟩

end Sys2Proof.Machine
end

section
/-!
SUPPORT. The step from an instruction's bytes in memory (40_cycle.md R112, R117): its operand bytes lie in memory or not;
and LDI's register check (40_cycle.md R114).
-/

namespace Sys2Proof.Machine

variable {s : State} {op : Opcode} {a b : Byte}

/-- A known opcode whose operand bytes run past the end of memory raises OutOfBounds(OPERAND, 256). -/
theorem step_of_operand_outside (hr : s.runState = .running) (hpc : s.pc < 256)
    (hop : decodeOpcode (s.mem.read s.pc) = some op) (hw : 256 < s.pc + op.width) :
    step s = .next (raise (.outOfBounds .operand 256) s) :=
  step_of_error hr (by simp [fetchInstr_eq, Nat.not_le.mpr hpc, hop, hw])

/-- An instruction that lies in memory is executed with its operand bytes. -/
theorem step_of_decodeOpcode (hr : s.runState = .running) (hop : decodeOpcode (s.mem.read s.pc) = some op)
    (hw : s.pc + op.width ≤ 256) :
    step s = exec (op.instr (s.mem.read (s.pc + 1)) (s.mem.read (s.pc + 2))) (afterFetch s op) :=
  step_of_fetch hr (fetchInstr_of_decodeOpcode hw hop)

theorem exec_ldi_of_ge (ha : 8 ≤ a.toNat) : exec (.ldi a b) s = .next (raise (.outOfBounds .reg a.toNat) s) :=
  withReg_of_ge ha _

/-- A fault raised after the fetch differs from one raised before it in the hidden registers only. -/
theorem sameArchitecture_raise_afterFetch (cause : FaultCause) (op : Opcode) :
    SameArchitecture (raise cause s) (raise cause (afterFetch s op)) :=
  ⟨rfl, rfl, rfl, rfl, rfl, rfl⟩

/-- A write to one register keeps the others. -/
theorem sameRegistersBut_setReg (r : RegIndex) (v : Byte) : SameRegistersBut [r.val] s (s.setReg r v) := by
  intro q hq
  have hne : q ≠ r := fun h => hq (by simp [h])
  simp [hne]

end Sys2Proof.Machine
end

section
/-!
The statement about LDI from its bytes in memory (41_hlt_ldi_prn.md).
-/

namespace Sys2Proof.Machine

/-- Settles O30, by the checks in their order: the operand bytes lie outside memory, the register byte names no
register, or LDI completes. -/
theorem ldiStep : Obligations.LdiStep := by
  intro s hr hpc hbyte
  have hop : decodeOpcode (s.mem.read s.pc) = some .ldi := decodeOpcode_eq_some_iff.mpr hbyte
  have hwidth : Opcode.ldi.width = 3 := rfl
  refine ⟨fun h254 => ?outside, fun h253 => ?inside⟩
  case outside => exact step_of_operand_outside hr hpc hop (by omega)
  case inside =>
    have hstep := step_of_decodeOpcode hr hop (by omega)
    refine ⟨fun hbad => ?badRegister, fun ha => ?completes⟩
    case badRegister => exact ⟨_, hstep.trans (exec_ldi_of_ge hbad), sameArchitecture_raise_afterFetch _ _⟩
    case completes =>
      refine ⟨_, hstep.trans (exec_ldi _ ha), ?value, rfl, ?others, fun _ => rfl, ⟨rfl, rfl⟩, rfl⟩
      case value => simp
      case others => exact sameRegistersBut_setReg ⟨_, ha⟩ _

end Sys2Proof.Machine
end

section
/-!
SUPPORT. The ALU contract for any of its operations (42_alu.md R150, R151, R152, R154): what ADD and MUL share is said
here once.
-/

namespace Sys2Proof.Machine

variable {s : State} {op : AluOp} {f : Nat → Nat → Nat} {a b : Byte}

/-- The ALU's operation never fails and gives `f` of the two unsigned bytes, modulo 256 (R151). -/
def AluOp.Computes (op : AluOp) (f : Nat → Nat → Nat) : Prop :=
  ∀ v w : Byte, ∃ r, aluResult op v w = .ok r ∧ r.toNat = f v.toNat w.toNat % 256

theorem AluOp.computes_add : AluOp.add.Computes fun x y => x + y :=
  fun v w => ⟨v + w, aluResult_add v w, BitVec.toNat_add v w⟩

theorem AluOp.computes_mul : AluOp.mul.Computes fun x y => x * y :=
  fun v w => ⟨v * w, aluResult_mul v w, BitVec.toNat_mul v w⟩

theorem execAlu_of_a_ge (ha : 8 ≤ a.toNat) :
    execAlu op a b s = .next (raise (.outOfBounds .reg a.toNat) s) :=
  withReg_of_ge ha _

theorem execAlu_of_b_ge (ha : a.toNat < 8) (hb : 8 ≤ b.toNat) :
    execAlu op a b s = .next (raise (.outOfBounds .reg b.toNat) s) :=
  (withReg_of_lt ha _).trans (withReg_of_ge hb _)

theorem execAlu_of_lt (ha : a.toNat < 8) (hb : b.toNat < 8) {r : Byte}
    (hr : aluResult op (s.reg ⟨a.toNat, ha⟩) (s.reg ⟨b.toNat, hb⟩) = .ok r) :
    execAlu op a b s = .next ((s.setReg ⟨a.toNat, ha⟩ r).advance 3) := by
  simp [execAlu, withRegs, withReg_of_lt ha, withReg_of_lt hb, hr]

/-- ADD's and MUL's bytes each select a three-byte instruction whose meaning is the ALU contract for their function. -/
theorem exists_aluOp_of_code {code : Byte}
    (h : (code = 0xA0#8 ∧ f = fun x y => x + y) ∨ (code = 0xA2#8 ∧ f = fun x y => x * y)) :
    ∃ (mnemonic : Opcode) (op : AluOp), decodeOpcode code = some mnemonic ∧ mnemonic.width = 3 ∧
      (∀ a b s, exec (mnemonic.instr a b) s = execAlu op a b s) ∧ op.Computes f := by
  rcases h with ⟨rfl, rfl⟩ | ⟨rfl, rfl⟩
  · exact ⟨.add, .add, rfl, rfl, fun _ _ _ => rfl, AluOp.computes_add⟩
  · exact ⟨.mul, .mul, rfl, rfl, fun _ _ _ => rfl, AluOp.computes_mul⟩

end Sys2Proof.Machine
end

section
/-!
The statements about ADD and MUL (42_alu.md).
-/

namespace Sys2Proof.Machine

/-- Settles O35, by the checks in their order: the operand bytes lie outside memory, `a` names no register, `b` alone
names none, or the ALU's result is stored. -/
theorem addMulStep : Obligations.AddMulStep := by
  intro code f s hcode hr hpc hbyte
  obtain ⟨mnemonic, op, hop, hwidth, hexec, hf⟩ := exists_aluOp_of_code hcode
  rw [← hbyte] at hop
  refine ⟨fun h254 => ?outside, fun h253 => ?inside⟩
  case outside => exact step_of_operand_outside hr hpc hop (by omega)
  case inside =>
    have hstep := (step_of_decodeOpcode hr hop (by omega)).trans (hexec _ _ _)
    refine ⟨fun ha => ?badA, fun ha hb => ?badB, fun ha hb => ?completes⟩
    case badA => exact ⟨_, hstep.trans (execAlu_of_a_ge ha), sameArchitecture_raise_afterFetch _ _⟩
    case badB => exact ⟨_, hstep.trans (execAlu_of_b_ge ha hb), sameArchitecture_raise_afterFetch _ _⟩
    case completes =>
      obtain ⟨r, hresult, hvalue⟩ := hf (s.reg ⟨_, ha⟩) (s.reg ⟨_, hb⟩)
      refine ⟨_, hstep.trans (execAlu_of_lt ha hb hresult), ?value, rfl, ?others, fun _ => rfl, ⟨rfl, rfl⟩, rfl⟩
      case value => simpa using hvalue
      case others => exact sameRegistersBut_setReg ⟨_, ha⟩ _

/-- Settles O33: each of the two operations computes its function. -/
theorem aluArithmetic : Obligations.AluArithmetic :=
  fun a b => ⟨AluOp.computes_add a b, AluOp.computes_mul a b⟩

end Sys2Proof.Machine
end

section
/-!
SUPPORT. The stack pointer's two moves modulo 256 (43_stack.md R170), and what PUSH and CALL share: both write the cell
the decremented pointer names.
-/

namespace Sys2Proof.Machine

variable {s t : State} {a : Byte}

theorem toNat_reg_decSp_sp :
    (s.decSp.reg spIndex).toNat = if s.reg spIndex = 0#8 then 255 else (s.reg spIndex).toNat - 1 := by
  simp only [State.reg_decSp, if_true]
  split
  case isTrue bottom => rw [bottom]; rfl
  case isFalse above => bv_omega

theorem toNat_reg_incSp_sp :
    (s.incSp.reg spIndex).toNat = if s.reg spIndex = 255#8 then 0 else (s.reg spIndex).toNat + 1 := by
  simp only [State.reg_incSp, if_true]
  split
  case isTrue top => rw [top]; rfl
  case isFalse below => bv_omega

/-- A write of the stack changes only the cell the stack pointer names. -/
theorem sameMemoryBut_writeStack (v : Byte) : SameMemoryBut (stackAddress s) s (s.writeStack v) := by
  intro b hb
  simp [Memory.read_write, hb]

/-- PUSH and CALL decrement the stack pointer, then write the stack; after that they move only `pc`. -/
theorem exec_push_or_call (ha : a.toNat < 8) (h : exec (.push a) s = .next t ∨ exec (.call a) s = .next t) :
    ∃ v target, t = (s.decSp.writeStack v).setPc target := by
  rcases h with h | h
  case inl => exact ⟨_, _, Host.Outcome.next.inj (h.symm.trans (exec_push s ha))⟩
  case inr => exact ⟨_, _, Host.Outcome.next.inj (h.symm.trans (exec_call s ha))⟩

/-- The index of an operand byte other than 7 is not the stack pointer's. -/
theorem ne_spIndex_of_ne (ha : a.toNat < 8) (h7 : a ≠ 7#8) : (⟨a.toNat, ha⟩ : RegIndex) ≠ spIndex := by
  intro hsp
  have value : a.toNat = 7 := congrArg Fin.val hsp
  exact h7 (BitVec.eq_of_toNat_eq value)

end Sys2Proof.Machine
end

section
/-!
The statement about the stack pointer (43_stack.md).
-/

namespace Sys2Proof.Machine

/-- Settles O38, by the direction the stack pointer moves in: PUSH and CALL are a decrement and a write of the stack;
POP and RET end in an increment, before which nothing has written the stack pointer. -/
theorem stackPointerMovesByOne : Obligations.StackPointerMovesByOne := by
  refine ⟨rfl, fun a s t ha => ⟨fun h => ?pushOrCall, fun h h7 => ?pop, fun h => ?ret⟩⟩
  case pushOrCall =>
    obtain ⟨v, target, rfl⟩ := exec_push_or_call ha h
    exact ⟨toNat_reg_decSp_sp, sameMemoryBut_writeStack (s := s.decSp) v⟩
  case pop =>
    have notSp := ne_spIndex_of_ne ha h7
    cases h.symm.trans (exec_pop s ha)
    refine ⟨?pointer, ?value⟩
    case pointer =>
      have kept : (s.readStack.setReg ⟨a.toNat, ha⟩ (stackByte s)).reg spIndex = s.reg spIndex := by
        simp [notSp.symm]
      exact kept ▸ toNat_reg_incSp_sp
    case value => simp [notSp, stackByte, stackAddress]
  case ret =>
    cases h.symm.trans (exec_ret s)
    exact ⟨toNat_reg_incSp_sp, rfl⟩

end Sys2Proof.Machine
end

section
/-!
SUPPORT. The return address and the cell CALL stores it in (44_subroutine.md R190, R191).
-/

namespace Sys2Proof.Machine

variable {s t : State} {a : Byte}

theorem toNat_returnAddress : (returnAddress s).toNat = (s.pc + 2) % 256 := BitVec.toNat_ofNat ..

/-- The byte written to the stack is read back in the cell the stack pointer names. -/
theorem stackByte_writeStack (v : Byte) : stackByte (s.writeStack v) = v := by
  simp [stackByte, stackAddress, Memory.read_write]

/-- After CALL the cell the decremented stack pointer names holds the return address. -/
theorem stackByte_of_exec_call (ha : a.toNat < 8) (h : exec (.call a) s = .next t) :
    stackByte t = returnAddress s := by
  cases h.symm.trans (exec_call s ha)
  exact stackByte_writeStack (s := s.decSp) (returnAddress s)

end Sys2Proof.Machine
end

section
/-!
The statement about the return address (44_subroutine.md).
-/

namespace Sys2Proof.Machine

/-- Settles O42, by whether CALL's operand byte lies in memory: at 255 it does not, and at 0..254 the cell `r7` names
holds the return address, reduced modulo 256 only at 254. -/
theorem returnAddressPushed : Obligations.ReturnAddressPushed := by
  intro s hr hbyte hpc
  have hop : decodeOpcode (s.mem.read s.pc) = some .call := decodeOpcode_eq_some_iff.mpr hbyte
  have hwidth : Opcode.call.width = 2 := rfl
  refine ⟨fun h255 => ?outside, fun h254 ha => ?inside⟩
  case outside => exact step_of_operand_outside hr hpc hop (by omega)
  case inside =>
    have hexec := exec_call (afterFetch s .call) ha
    have stored := (congrArg BitVec.toNat (stackByte_of_exec_call ha hexec)).trans toNat_returnAddress
    have hstep := step_of_decodeOpcode hr hop (by omega)
    refine ⟨_, hstep.trans hexec, stored, fun h253 => ?unreduced, fun hlast => ?zero⟩
    case unreduced => exact stored.trans (Nat.mod_eq_of_lt (by omega : s.pc + 2 < 256))
    case zero =>
      refine BitVec.eq_of_toNat_eq (stored.trans ?_)
      rw [afterFetch_pc, hlast]
      rfl

end Sys2Proof.Machine
end

section
/-!
SUPPORT. The decoder and the encoder as inverses of each other, and an instruction's bytes in a table word
(30_encoding.md R80 to R85).
-/

namespace Sys2Proof

variable {bytes tail rest : List Byte} {ir a b a' b' : Byte} {op : Opcode} {i : Instr}

/-! ### Decoding -/

/-- What the decoder reads from bytes that begin with `ir`. -/
theorem decode_cons_eq_ok :
    decode (ir :: tail) = .ok (i, rest) ↔
      ∃ op, decodeOpcode ir = some op ∧ op.operandCount ≤ tail.length ∧
        op.instr (tail.getD 0 0) (tail.getD 1 0) = i ∧ tail.drop op.operandCount = rest := by
  cases hop : decodeOpcode ir with
  | none => simp [decode, hop]
  | some op =>
    by_cases hlen : tail.length < op.operandCount
    · simp [decode, hop, hlen]
    · simp [decode, hop, hlen, Nat.not_lt.mp hlen]

/-- Every instruction's encoding is read back, whatever follows it. -/
theorem decode_encode_append (i : Instr) (rest : List Byte) : decode (encode i ++ rest) = .ok (i, rest) := by
  rw [encode, List.cons_append, decode_cons_eq_ok]
  refine ⟨i.opcode, decodeOpcode_byte _, ?length, ?instr, ?rest⟩
  case length => simp
  case instr => cases i <;> rfl
  case rest => rw [← i.length_operands, List.drop_left]

/-- The first operand bytes are the instruction's. -/
theorem Opcode.operands_instr_getD (h : op.operandCount ≤ tail.length) :
    (op.instr (tail.getD 0 0) (tail.getD 1 0)).operands = tail.take op.operandCount := by
  have hcount := op.operandCount_le
  rw [Opcode.operands_instr]
  match tail, h with
  | [], h => simp [Nat.le_zero.mp h]
  | [a], h =>
    rcases Nat.le_one_iff_eq_zero_or_eq_one.mp h with h | h <;> simp [h]
  | a :: b :: tail, _ =>
    obtain h | h | h : op.operandCount = 0 ∨ op.operandCount = 1 ∨ op.operandCount = 2 := by omega
    all_goals simp [h]

theorem encode_append_of_decode (h : decode bytes = .ok (i, rest)) : bytes = encode i ++ rest := by
  cases bytes with
  | nil => cases h
  | cons ir tail =>
    obtain ⟨op, hop, hlen, rfl, rfl⟩ := decode_cons_eq_ok.mp h
    rw [encode, Opcode.opcode_instr, Opcode.operands_instr_getD hlen, List.cons_append, List.take_append_drop,
      byte_of_decodeOpcode hop]

theorem decode_eq_ok_iff : decode bytes = .ok (i, rest) ↔ bytes = encode i ++ rest :=
  ⟨encode_append_of_decode, fun h => h ▸ decode_encode_append i rest⟩

/-- An opcode's instruction depends on the operand bytes its width calls for alone (R85). -/
theorem Opcode.instr_congr (ha : 1 ≤ op.operandCount → a = a') (hb : 2 ≤ op.operandCount → b = b') :
    op.instr a b = op.instr a' b' := by
  cases op with
  | hlt | ret => rfl
  | prn | push | pop | call => simp only [Opcode.instr, ha (by decide)]
  | ldi | add | mul => rw [ha (by decide), hb (by decide)]

/-! ### Table words -/

/-- Bytes as one number, the first byte least significant (20_memory.md R56). -/
def littleEndian (bytes : List Byte) : Nat := bytes.foldr (fun b w => b.toNat + 256 * w) 0

@[simp] theorem littleEndian_nil : littleEndian [] = 0 := rfl

@[simp] theorem littleEndian_cons (b : Byte) (bytes : List Byte) :
    littleEndian (b :: bytes) = b.toNat + 256 * littleEndian bytes := rfl

theorem littleEndian_lt (bytes : List Byte) : littleEndian bytes < 2 ^ (8 * bytes.length) := by
  induction bytes with
  | nil => decide
  | cons b bytes ih =>
    have hb := b.isLt
    rw [littleEndian_cons, List.length_cons, Nat.mul_succ, Nat.pow_add]
    omega

/-- The byte `k` places up is the one at index `k`. -/
theorem ofNat_littleEndian_div (bytes : List Byte) (k : Nat) :
    BitVec.ofNat 8 (littleEndian bytes / 2 ^ (8 * k)) = bytes.getD k 0 := by
  induction bytes generalizing k with
  | nil => simp
  | cons b bytes ih =>
    have hb := b.isLt
    cases k with
    | zero =>
      apply BitVec.eq_of_toNat_eq
      simp only [littleEndian_cons, BitVec.toNat_ofNat, List.getD_cons_zero, Nat.mul_zero, Nat.pow_zero, Nat.div_one]
      omega
    | succ k =>
      rw [List.getD_cons_succ, ← ih, littleEndian_cons, Nat.mul_succ, Nat.add_comm _ 8, Nat.pow_add,
        ← Nat.div_div_eq_div_mul]
      congr 2
      omega

/-- A table word holds the bytes laid out in it, whatever stands above them. -/
theorem wordBytes_littleEndian (bytes : List Byte) (above : Nat) :
    wordBytes (8 * bytes.length) (littleEndian bytes + 2 ^ (8 * bytes.length) * above) =
      [bytes.getD 0 0, bytes.getD 1 0, bytes.getD 2 0] := by
  have own : (littleEndian bytes + 2 ^ (8 * bytes.length) * above) % 2 ^ (8 * bytes.length) = littleEndian bytes := by
    rw [Nat.add_mul_mod_self_left, Nat.mod_eq_of_lt (littleEndian_lt bytes)]
  rw [wordBytes, own, ← ofNat_littleEndian_div bytes 0, ← ofNat_littleEndian_div bytes 1,
    ← ofNat_littleEndian_div bytes 2]
  simp

/-- No instruction has more than three bytes (R80). -/
theorem encode_getD_three (i : Instr) :
    ∃ pad, [(encode i).getD 0 0, (encode i).getD 1 0, (encode i).getD 2 0] = encode i ++ pad := by
  cases i <;> exact ⟨_, rfl⟩

theorem length_encode (i : Instr) : (encode i).length = i.opcode.width := by
  simp [encode, Opcode.width]

/-- A table word's instruction, by its three bytes. -/
theorem decodeTableWord_eq_some {nbits w : Nat} (h : decodeTableWord nbits w = some i) :
    ∃ rest, decode (wordBytes nbits w) = .ok (i, rest) := by
  unfold decodeTableWord at h
  split at h
  · cases h; exact ⟨_, ‹_›⟩
  · cases h

end Sys2Proof
end

section
/-!
The statements about the decoder, the encoder and table words (30_encoding.md sections 1 to 5).
-/

namespace Sys2Proof

/-- Settles O5: the decoder's reading of the first byte and of the operand bytes, in both directions. -/
theorem decodeInvertsEncode : Obligations.DecodeInvertsEncode :=
  fun _ _ _ => decode_eq_ok_iff

/-- Settles O6: the table word holds the encoding and padding, and the decoder stops at the encoding's end. -/
theorem tableWordsDecode : Obligations.TableWordsDecode := by
  intro i above
  obtain ⟨pad, hpad⟩ := encode_getD_three i
  have hword : wordBytes (8 * i.opcode.width) (littleEndian (encode i) + 2 ^ (8 * i.opcode.width) * above) =
      encode i ++ pad := by
    rw [← length_encode, wordBytes_littleEndian, hpad]
  show decodeTableWord _ (littleEndian (encode i) + _) = _
  rw [decodeTableWord, hword, decode_encode_append]

/-- Settles O4: each example is an encoding followed by the bytes left over. -/
theorem encodingExamplesDecode : Obligations.EncodingExamplesDecode :=
  ⟨decode_encode_append (.ldi 0 8) [], decode_encode_append (.mul 0 1) [], decode_encode_append (.prn 0) [0x01#8],
    decode_encode_append (.push 0) [], decode_encode_append (.pop 1) [], decode_encode_append (.call 1) [],
    decode_encode_append .hlt [], decode_encode_append .ret [0x82#8]⟩

/-- Settles O3, by the opcode: each one's byte is a literal. -/
theorem opcodeBitsGiveWidthAndClass : Obligations.OpcodeBitsGiveWidthAndClass := by
  intro op
  cases op <;> decide

/-- Settles O2: the ranges hold none of the nine matched bytes and every other byte, and the illegal bytes are
counted. -/
theorem illegalOpcodeBytes : Obligations.IllegalOpcodeBytes := by
  refine ⟨fun ir => ?ranges, by decide +kernel⟩
  case ranges =>
    unfold decodeOpcode
    split_ifs
    case neg => simp only [true_iff]; bv_omega
    all_goals subst ir; decide

end Sys2Proof
end

section
/-!
SUPPORT. Decimal text (41_hlt_ldi_prn.md R137) and the assembly spelling read back (30_encoding.md R89).
-/

namespace Sys2Proof

variable {i j : Instr} {op : Opcode} {a b a' b' : Byte} {l l' : List Byte} {text : List Char} {n m d : Nat}

/-! ### Decimal numbers -/

theorem toNat_digitChar (hd : d < 10) : (digitChar d).toNat = 48 + d := by
  revert d; decide

theorem isDigit_digitChar (hd : d < 10) : (digitChar d).isDigit = true := by
  revert d; decide

theorem digitChar_ne_zero (hd : d < 10) (h0 : d ≠ 0) : digitChar d ≠ '0' := by
  revert d; decide

theorem digitChar_inj (hn : n < 10) (hm : m < 10) (h : digitChar n = digitChar m) : n = m := by
  have := congrArg Char.toNat h
  rw [toNat_digitChar hn, toNat_digitChar hm] at this
  omega

/-- The number a decimal text stands for. -/
def decimalValue (digits : List Char) : Nat := digits.foldl (fun n c => 10 * n + (c.toNat - 48)) 0

/-- A number below 1000 has one, two or three digits, the first of several not 0. -/
theorem decimalText_cases (hn : n < 1000) :
    (n < 10 ∧ decimalText n = [digitChar n]) ∨
    (∃ t u, t ≠ 0 ∧ t < 10 ∧ u < 10 ∧ n = 10 * t + u ∧ decimalText n = [digitChar t, digitChar u]) ∨
    ∃ h t u, h ≠ 0 ∧ h < 10 ∧ t < 10 ∧ u < 10 ∧ n = 100 * h + 10 * t + u ∧
      decimalText n = [digitChar h, digitChar t, digitChar u] := by
  by_cases h10 : n < 10
  · exact .inl ⟨h10, if_pos h10⟩
  · by_cases h100 : n < 100
    · refine .inr (.inl ⟨n / 10, n % 10, by omega, by omega, by omega, by omega, ?_⟩)
      simp [decimalText, h10, h100]
    · refine .inr (.inr ⟨n / 100, n / 10 % 10, n % 10, by omega, by omega, by omega, by omega, by omega, ?_⟩)
      simp [decimalText, h10, h100]

theorem decimalValue_decimalText (hn : n < 1000) : decimalValue (decimalText n) = n := by
  rcases decimalText_cases hn with ⟨hd, h⟩ | ⟨t, u, -, ht, hu, rfl, h⟩ | ⟨c, t, u, -, hc, ht, hu, rfl, h⟩
  · simp [h, decimalValue, toNat_digitChar hd]
  · simp [h, decimalValue, toNat_digitChar ht, toNat_digitChar hu]
  · simp [h, decimalValue, toNat_digitChar hc, toNat_digitChar ht, toNat_digitChar hu]; omega

theorem decimalText_inj (hn : n < 1000) (hm : m < 1000) (h : decimalText n = decimalText m) : n = m := by
  rw [← decimalValue_decimalText hn, h, decimalValue_decimalText hm]

theorem decimalText_all_isDigit (hn : n < 1000) : (decimalText n).all Char.isDigit = true := by
  rcases decimalText_cases hn with ⟨hd, h⟩ | ⟨t, u, -, ht, hu, -, h⟩ | ⟨c, t, u, -, hc, ht, hu, -, h⟩
  · simp [h, isDigit_digitChar hd]
  · simp [h, isDigit_digitChar ht, isDigit_digitChar hu]
  · simp [h, isDigit_digitChar hc, isDigit_digitChar ht, isDigit_digitChar hu]

/-- No leading zeros: only 0 itself begins with one. -/
theorem decimalText_eq_zero_of_head (hn : n < 1000) (hz : (decimalText n).head? = some '0') :
    decimalText n = ['0'] := by
  rcases decimalText_cases hn with ⟨hd, h⟩ | ⟨t, u, h0, ht, -, -, h⟩ | ⟨c, t, u, h0, hc, -, -, -, h⟩
  · simpa [h] using hz
  · exact absurd (by simpa [h] using hz) (digitChar_ne_zero ht h0)
  · exact absurd (by simpa [h] using hz) (digitChar_ne_zero hc h0)

theorem decimalText_ne_nil (n : Nat) : decimalText n ≠ [] := by
  unfold decimalText
  split_ifs <;> exact List.cons_ne_nil _ _

/-- A byte's decimal text has at most three digits. -/
theorem toNat_lt_thousand (b : Byte) : b.toNat < 1000 := Nat.lt_trans b.isLt (by decide)

/-! ### Register operands -/

theorem registerText_of_lt (h : b.toNat < 8) : registerText b = some [' ', 'r', digitChar b.toNat] := by
  have h10 : b.toNat < 10 := by omega
  simp [registerText, decimalText, h, h10]

theorem registerText_of_ge (h : 8 ≤ b.toNat) : registerText b = none := if_neg (Nat.not_lt.mpr h)

/-- The spelling of register operands, for bytes that name registers. -/
def registersText (l : List Byte) : List Char := l.flatMap fun b => [' ', 'r', digitChar b.toNat]

theorem mapM_registerText_eq_some {texts : List (List Char)} :
    l.mapM registerText = some texts ↔
      (∀ b ∈ l, b.toNat < 8) ∧ texts = l.map fun b => [' ', 'r', digitChar b.toNat] := by
  induction l generalizing texts with
  | nil => simp [eq_comm]
  | cons b l ih =>
    by_cases hb : b.toNat < 8
    · simp only [List.mapM_cons, registerText_of_lt hb, Option.bind_eq_bind, Option.bind_some, Option.pure_def,
        Option.bind_eq_some_iff, ih, Option.some.injEq, List.forall_mem_cons, hb, true_and, List.map_cons]
      constructor
      · rintro ⟨_, ⟨hl, rfl⟩, rfl⟩
        exact ⟨hl, rfl⟩
      · rintro ⟨hl, rfl⟩
        exact ⟨_, ⟨hl, rfl⟩, rfl⟩
    · simp [registerText_of_ge (Nat.not_lt.mp hb), hb]

/-- Register operands are spelled exactly when each names a register. -/
theorem registerForm_eq_some :
    registerForm op l = some text ↔ (∀ b ∈ l, b.toNat < 8) ∧ text = op.mnemonic ++ registersText l := by
  simp only [registerForm, Option.map_eq_some_iff, mapM_registerText_eq_some, registersText, List.flatMap]
  constructor
  · rintro ⟨_, ⟨hl, rfl⟩, rfl⟩
    exact ⟨hl, rfl⟩
  · rintro ⟨hl, rfl⟩
    exact ⟨_, ⟨hl, rfl⟩, rfl⟩

/-- Register operands are read back from their spelling. -/
theorem registersText_inj (hl : ∀ b ∈ l, b.toNat < 8) (hl' : ∀ b ∈ l', b.toNat < 8)
    (h : registersText l = registersText l') : l = l' := by
  induction l generalizing l' with
  | nil =>
    cases l' with
    | nil => rfl
    | cons b' l' => cases h
  | cons b l ih =>
    cases l' with
    | nil => cases h
    | cons b' l' =>
      simp only [List.forall_mem_cons] at hl hl'
      simp only [registersText, List.flatMap_cons, List.cons_append, List.nil_append, List.cons.injEq,
        true_and] at h
      have hbyte : b = b' := BitVec.eq_of_toNat_eq (digitChar_inj (by omega) (by omega) h.1)
      rw [hbyte, ih hl.2 hl'.2 h.2]

/-! ### The whole spelling -/

/-- The text after the mnemonic. -/
def operandsText : Instr → List Char
  | .ldi a b => registersText [a] ++ ' ' :: decimalText b.toNat
  | i => registersText i.registerOperands

/-- An instruction's spelling: it has one exactly when it is well formed. -/
theorem assemblyText_eq_some :
    assemblyText i = some text ↔ i.wellFormed = true ∧ text = i.opcode.mnemonic ++ operandsText i := by
  rw [Instr.wellFormed_iff]
  cases i with
  | ldi a b =>
    simp only [assemblyText, Option.map_eq_some_iff, registerForm_eq_some, operandsText]
    constructor
    · rintro ⟨text, ⟨hl, rfl⟩, rfl⟩
      exact ⟨hl, List.append_assoc ..⟩
    · rintro ⟨hl, rfl⟩
      exact ⟨_, ⟨hl, rfl⟩, List.append_assoc ..⟩
  | hlt | prn | add | mul | push | pop | call | ret => exact registerForm_eq_some

/-- The mnemonics' first two letters tell the opcodes apart. -/
theorem Opcode.mnemonic_initials_inj {op op' : Opcode} (h : op.mnemonic.take 2 = op'.mnemonic.take 2) : op = op' := by
  have rows : ∀ row ∈ opcodeTable, ∀ row' ∈ opcodeTable,
      row.2.1.mnemonic.take 2 = row'.2.1.mnemonic.take 2 → row.2.1 = row'.2.1 := by decide
  exact rows (op.byte, op, op.width) (mem_opcodeTable_iff.mpr ⟨rfl, rfl⟩)
    (op'.byte, op', op'.width) (mem_opcodeTable_iff.mpr ⟨rfl, rfl⟩) h

theorem Opcode.initials_of_spelling (op : Opcode) (rest : List Char) :
    (op.mnemonic ++ rest).take 2 = op.mnemonic.take 2 := by
  cases op <;> rfl

/-- The operand bytes of one opcode are read back from the text after its mnemonic. -/
theorem operandsText_inj (h : (op.instr a b).wellFormed = true) (h' : (op.instr a' b').wellFormed = true)
    (htext : operandsText (op.instr a b) = operandsText (op.instr a' b')) : op.instr a b = op.instr a' b' := by
  rw [Instr.wellFormed_iff] at h h'
  cases op with
  | ldi =>
    have split := List.append_inj htext rfl
    have hreg := registersText_inj h h' split.1
    have hval := decimalText_inj (toNat_lt_thousand b) (toNat_lt_thousand b') (List.cons.inj split.2).2
    simp only [Opcode.instr, Instr.ldi.injEq]
    exact ⟨(List.cons.inj hreg).1, BitVec.eq_of_toNat_eq hval⟩
  | hlt | ret => rfl
  | prn | push | pop | call | add | mul =>
    have hreg := registersText_inj h h' htext
    simpa [Opcode.instr, Instr.registerOperands] using hreg

/-- Every instruction is an opcode's. -/
theorem Instr.exists_eq_instr (i : Instr) : ∃ (op : Opcode) (a b : Byte), i = op.instr a b :=
  ⟨_, _, _, i.instr_operands.symm⟩

/-- A spelling stands for one instruction. -/
theorem assemblyText_inj (hi : assemblyText i = some text) (hj : assemblyText j = some text) : i = j := by
  obtain ⟨hwi, rfl⟩ := assemblyText_eq_some.mp hi
  obtain ⟨hwj, hsame⟩ := assemblyText_eq_some.mp hj
  obtain ⟨op, a, b, rfl⟩ := i.exists_eq_instr
  obtain ⟨op', a', b', rfl⟩ := j.exists_eq_instr
  rw [Opcode.opcode_instr, Opcode.opcode_instr] at hsame
  obtain rfl : op = op' := Opcode.mnemonic_initials_inj <| by
    simpa only [Opcode.initials_of_spelling] using congrArg (List.take 2) hsame
  exact operandsText_inj hwi hwj (List.append_cancel_left hsame)

end Sys2Proof
end

section
/-!
The statements about text: assembly spelling (30_encoding.md section 5) and the sink (41_hlt_ldi_prn.md R137).
-/

namespace Sys2Proof

/-- Settles O7: a spelling is the mnemonic, whose initials give the opcode, and the operands, which are read back. -/
theorem assemblySpellingIsUnambiguous : Obligations.AssemblySpellingIsUnambiguous := by
  refine ⟨fun i => ?_, fun i j text => assemblyText_inj⟩
  rw [Option.isSome_iff_exists]
  simp only [assemblyText_eq_some, exists_and_left, exists_eq, and_true]

/-- Settles O32: the digits are the value's decimal text. -/
theorem sinkTextIsDecimal : Obligations.SinkTextIsDecimal := by
  refine ⟨rfl, fun v out => ⟨decimalText v.toNat, ?appended, ?_⟩⟩
  case appended => simp [Machine.sinkText]
  have hv := toNat_lt_thousand v
  exact ⟨decimalText_all_isDigit hv, decimalText_eq_zero_of_head hv, decimalValue_decimalText hv,
    decimalText_ne_nil _⟩

end Sys2Proof
end

section
/-!
SUPPORT. The execute phase in two cases (40_cycle.md R114): an instruction with a bad register operand raises, a
well-formed one completes.
-/

namespace Sys2Proof

variable {i : Instr} {op : Opcode} {a b v : Byte}

/-- The first register operand byte that names no register. -/
def Instr.badOperand (i : Instr) : Option Byte := i.registerOperands.find? fun b => !namesRegister b

theorem not_namesRegister_iff : (!namesRegister b) = true ↔ 8 ≤ b.toNat := by
  rw [Bool.not_eq_true', ← Bool.not_eq_true, namesRegister_iff, Nat.not_lt]

theorem Instr.le_of_badOperand (h : i.badOperand = some v) : 8 ≤ v.toNat :=
  not_namesRegister_iff.mp (List.find?_some (p := fun b => !namesRegister b) h)

theorem Instr.badOperand_eq_none_iff : i.badOperand = none ↔ i.wellFormed = true := by
  simp [badOperand, wellFormed]

/-- Register operands stand in the operand bytes, so an instruction that has one is two bytes wide or more. -/
theorem Opcode.mem_registerOperands_instr (h : v ∈ (op.instr a b).registerOperands) :
    2 ≤ op.width ∧ (v = a ∨ v = b) := by
  cases op with
  | hlt | ret => cases h
  | ldi | prn | push | pop | call => exact ⟨by decide, .inl (List.mem_singleton.mp h)⟩
  | add | mul => exact ⟨by decide, by simpa [Opcode.instr, Instr.registerOperands] using h⟩

end Sys2Proof

namespace Sys2Proof.Machine

variable {s t : State} {i : Instr} {op : AluOp} {a b v : Byte}

/-- One checked register operand that is bad. -/
theorem withReg_of_badOperand {k : RegIndex → Host.Outcome State Fault Refusal}
    (h : [a].find? (fun b => !namesRegister b) = some v) :
    withReg a s k = .next (raise (.outOfBounds .reg v.toNat) s) := by
  have ha := List.find?_some h
  obtain rfl := List.mem_singleton.mp (List.mem_of_find?_eq_some h)
  exact withReg_of_ge (not_namesRegister_iff.mp ha) k

/-- Two checked register operands of which one is bad: `a` is reported before `b`. -/
theorem execAlu_of_badOperand (h : [a, b].find? (fun b => !namesRegister b) = some v) :
    execAlu op a b s = .next (raise (.outOfBounds .reg v.toNat) s) := by
  by_cases ha : a.toNat < 8
  · rw [List.find?_cons_of_neg (by simpa using ha)] at h
    exact (withReg_of_lt ha _).trans (withReg_of_badOperand h)
  · rw [List.find?_cons_of_pos (p := fun b => !namesRegister b) (not_namesRegister_iff.mpr (Nat.not_lt.mp ha))] at h
    obtain rfl := Option.some.inj h
    exact execAlu_of_a_ge (Nat.not_lt.mp ha)

/-- A bad register operand raises OutOfBounds(REG) and writes nothing. -/
theorem exec_of_badOperand (h : i.badOperand = some v) :
    exec i s = .next (raise (.outOfBounds .reg v.toNat) s) := by
  cases i with
  | hlt | ret => cases h
  | ldi | prn | push | pop | call => exact withReg_of_badOperand h
  | add => exact execAlu_of_badOperand (op := .add) h
  | mul => exact execAlu_of_badOperand (op := .mul) h

/-- What every completed instruction does to the rest of the machine, whichever it is: it leaves the fault record, stays
in its run state unless it is HLT, moves `pc` on by its width or into memory, and writes at most one cell. -/
structure Completes (i : Instr) (s t : State) : Prop where
  next : exec i s = .next t
  fault : t.fault = s.fault
  runState : t.runState = if i.opcode = .hlt then .halted else s.runState
  pc : t.pc = s.pc + i.opcode.width ∨ t.pc < 256
  mem : t.mem = s.mem ∨ ∃ a v, a < 256 ∧ t.mem = s.mem.write a v

theorem exec_completes (h : i.wellFormed = true) (s : State) : ∃ t, Completes i s t := by
  have good := Instr.wellFormed_iff.mp h
  cases i with
  | hlt => exact ⟨_, exec_hlt s, rfl, rfl, .inl rfl, .inl rfl⟩
  | ldi a b => exact ⟨_, exec_ldi s (good a (.head _)), rfl, rfl, .inl rfl, .inl rfl⟩
  | prn a => exact ⟨_, exec_prn s (good a (.head _)), rfl, rfl, .inl rfl, .inl rfl⟩
  | add a b =>
    exact ⟨_, exec_add s (good a (.head _)) (good b (.tail _ (.head _))), rfl, rfl, .inl rfl, .inl rfl⟩
  | mul a b =>
    exact ⟨_, exec_mul s (good a (.head _)) (good b (.tail _ (.head _))), rfl, rfl, .inl rfl, .inl rfl⟩
  | push a =>
    exact ⟨_, exec_push s (good a (.head _)), rfl, rfl, .inl rfl, .inr ⟨_, _, stackAddress_lt s.decSp, rfl⟩⟩
  | pop a => exact ⟨_, exec_pop s (good a (.head _)), rfl, rfl, .inl rfl, .inl rfl⟩
  | call a =>
    exact ⟨_, exec_call s (good a (.head _)), rfl, rfl, .inr (s.decSp.reg _).isLt,
      .inr ⟨_, _, stackAddress_lt s.decSp, rfl⟩⟩
  | ret => exact ⟨_, exec_ret s, rfl, rfl, .inr (stackByte s).isLt, .inl rfl⟩

theorem Completes.of_exec (hwf : i.wellFormed = true) (h : exec i s = .next t) : Completes i s t := by
  obtain ⟨u, hu⟩ := exec_completes hwf s
  obtain rfl := Host.Outcome.next.inj (hu.next.symm.trans h)
  exact hu

/-- The execute phase, both cases. -/
theorem exec_cases (h : exec i s = .next t) :
    (∃ v, i.badOperand = some v ∧ t = raise (.outOfBounds .reg v.toNat) s) ∨
    (i.wellFormed = true ∧ Completes i s t) := by
  cases hbad : i.badOperand with
  | none =>
    have hwf := Instr.badOperand_eq_none_iff.mp hbad
    exact .inr ⟨hwf, .of_exec hwf h⟩
  | some v => exact .inl ⟨v, rfl, Host.Outcome.next.inj (h.symm.trans (exec_of_badOperand hbad))⟩

/-- The execute phase always answers a next state. -/
theorem exists_exec_eq_next (i : Instr) (s : State) : ∃ t, exec i s = .next t := by
  cases hbad : i.badOperand with
  | none =>
    obtain ⟨t, ht⟩ := exec_completes (Instr.badOperand_eq_none_iff.mp hbad) s
    exact ⟨t, ht.next⟩
  | some v => exact ⟨_, exec_of_badOperand hbad⟩

end Sys2Proof.Machine
end

section
/-!
SUPPORT. The step by its failing check (60_exceptions.md R217): which checks there are, and that a step raises the first
that fails or completes its instruction.
-/

namespace Sys2Proof.Machine

variable {s t : State} {cause : FaultCause} {op : Opcode}

/-- The instruction whose opcode byte stands at `pc`, with the bytes after it as operands. -/
def State.instrAt (s : State) (op : Opcode) : Instr := op.instr (s.mem.read (s.pc + 1)) (s.mem.read (s.pc + 2))

@[simp] theorem State.opcode_instrAt : (s.instrAt op).opcode = op := Opcode.opcode_instr ..

/-- The checks of a step that can fail, with the cause each raises (R212, R215). -/
inductive FailedCheck (s : State) : FaultCause → Prop where
  | fetch (hpc : 256 ≤ s.pc) : FailedCheck s (.outOfBounds .fetch s.pc)
  | opcode (hpc : s.pc < 256) (hop : decodeOpcode (s.mem.read s.pc) = none) :
      FailedCheck s (.unknownInstruction (s.mem.read s.pc))
  | operand (op : Opcode) (hpc : s.pc < 256) (hop : decodeOpcode (s.mem.read s.pc) = some op)
      (hw : 256 < s.pc + op.width) : FailedCheck s (.outOfBounds .operand 256)
  | register (op : Opcode) (v : Byte) (hw : s.pc + op.width ≤ 256)
      (hv : (s.instrAt op).badOperand = some v) : FailedCheck s (.outOfBounds .reg v.toNat)

theorem failedCheck_of_fetchInstr (h : fetchInstr s = .error cause) : FailedCheck s cause := by
  rw [fetchInstr_eq] at h
  split_ifs at h with hpc
  · cases h; exact .fetch hpc
  · have hlt : s.pc < 256 := by omega
    split at h
    · cases h; exact .opcode hlt ‹_›
    · split_ifs at h with hw
      cases h; exact .operand _ hlt ‹_› hw

/-- Everything a step can do: it raises the cause of a failed check over the same architectural state, or it completes
the instruction at `pc`. -/
theorem step_raises_or_completes (h : step s = .next t) :
    s.runState = .running ∧
    ((∃ cause u, FailedCheck s cause ∧ SameArchitecture s u ∧ t = raise cause u) ∨
     ∃ op, s.pc + op.width ≤ 256 ∧ s.mem.read s.pc = op.byte ∧ Completes (s.instrAt op) (afterFetch s op) t) := by
  obtain ⟨hr, ⟨cause, hf, rfl⟩ | ⟨op, hw, hop, hx⟩⟩ := step_cases h
  · exact ⟨hr, .inl ⟨cause, s, failedCheck_of_fetchInstr hf, ⟨rfl, rfl, rfl, rfl, rfl, rfl⟩, rfl⟩⟩
  · refine ⟨hr, ?_⟩
    rcases exec_cases hx with ⟨v, hv, rfl⟩ | ⟨-, hc⟩
    · exact .inl ⟨_, afterFetch s op, .register op v hw hv, ⟨rfl, rfl, rfl, rfl, rfl, rfl⟩, rfl⟩
    · exact .inr ⟨op, hw, byte_of_decodeOpcode hop, hc⟩

/-- A failed check is an explained fault, where `pc` has not left 0..256 (60_exceptions.md R212). -/
theorem FailedCheck.faultExplained {u : State} (h : FailedCheck s cause) (hpc : s.pc ≤ 256)
    (hu : SameArchitecture s u) : (raise cause u).faultExplained { cause := cause, fpc := u.pc } := by
  obtain ⟨-, hpc', hmem, -⟩ := hu
  refine ⟨rfl, ?_⟩
  simp only [raise_pc, raise_mem, hpc', hmem]
  cases h with
  | fetch h => exact ⟨by omega, by omega⟩
  | opcode h hop => exact ⟨h, rfl, hop⟩
  | operand op h hop hw => exact ⟨rfl, op, hop, h, hw⟩
  | register op v hw hv =>
    obtain ⟨hwidth, hv'⟩ := Opcode.mem_registerOperands_instr (List.mem_of_find?_eq_some hv)
    exact ⟨Instr.le_of_badOperand hv, by omega, hv'.imp (congrArg _) (congrArg _)⟩

theorem FailedCheck.ne_unsupportedOperation (h : FailedCheck s cause) (o : AluOp) :
    cause ≠ .unsupportedOperation o := by
  cases h <;> exact FaultCause.noConfusion

theorem Completes.runState_of_running {i : Instr} (h : Completes i s t) (hr : s.runState = .running) :
    t.runState = if i.opcode = .hlt then .halted else .running := hr ▸ h.runState

theorem Completes.runState_ne_faulted {i : Instr} (h : Completes i s t) (hr : s.runState = .running) :
    t.runState ≠ .faulted := by
  rw [h.runState_of_running hr]
  split <;> exact RunState.noConfusion

/-- A legal state that is not FAULTED has no fault record to explain. -/
theorem legal_iff_of_ne_faulted (hr : s.runState ≠ .faulted) :
    s.Legal ↔ s.mem.wf = true ∧ s.pc ≤ 256 ∧ s.fault = none := by
  constructor
  · rintro ⟨hmem, hpc, hfault, -⟩
    exact ⟨hmem, hpc, hfault.mpr hr⟩
  · rintro ⟨hmem, hpc, hfault⟩
    refine ⟨hmem, hpc, iff_of_true hfault hr, fun record h => ?_⟩
    cases hfault.symm.trans h

/-- A raised fault leaves a legal state, when it is explained. -/
theorem legal_raise (hmem : s.mem.wf = true) (hpc : s.pc ≤ 256)
    (h : (raise cause s).faultExplained { cause := cause, fpc := s.pc }) : (raise cause s).Legal := by
  refine ⟨hmem, hpc, by simp, fun record hrecord => ?_⟩
  cases hrecord
  exact h

/-- A completed instruction keeps memory's canonical form. -/
theorem Completes.wf {i : Instr} (h : Completes i s t) (hmem : s.mem.wf = true) : t.mem.wf = true := by
  rcases h.mem with hm | ⟨a, v, ha, hm⟩
  · rwa [hm]
  · exact hm ▸ Memory.wf_write _ a v ha hmem

end Sys2Proof.Machine
end

section
/-!
The statements about the invariant of a legal state and about faults (10_state.md, 60_exceptions.md).
-/

namespace Sys2Proof.Machine

/-- Settles O10, by the end of the step: a raised fault is explained by the check that failed, and a completed
instruction keeps memory's form, `pc` inside its range and the fault record away. -/
theorem stepKeepsLegal : Obligations.StepKeepsLegal := by
  intro s t hs h
  obtain ⟨hr, hend⟩ := step_raises_or_completes h
  obtain ⟨hmem, hpc, hfault⟩ := (legal_iff_of_ne_faulted (by simp [hr])).mp hs
  rcases hend with ⟨cause, u, hcheck, hsame, rfl⟩ | ⟨op, hw, -, hc⟩
  · have hexplained := hcheck.faultExplained hpc hsame
    obtain ⟨-, hpc', hmem', -⟩ := hsame
    exact legal_raise (hmem' ▸ hmem) (hpc' ▸ hpc) hexplained
  · refine (legal_iff_of_ne_faulted (hc.runState_ne_faulted hr)).mpr ⟨hc.wf hmem, ?pc, hc.fault.trans hfault⟩
    case pc =>
      rcases hc.pc with hpc' | hpc'
      · rw [hpc', State.opcode_instrAt]; exact hw
      · omega

/-- Settles O9: the reset state runs and has no fault record. -/
theorem resetIsLegal : Obligations.ResetIsLegal :=
  (legal_iff_of_ne_faulted (by decide)).mpr ⟨Memory.wf_reset, by decide, rfl⟩

/-- Settles O26: the check of the first bad register operand fails before anything is written. -/
theorem badRegisterOperandRaises : Obligations.BadRegisterOperandRaises :=
  fun _ _ _ h => ⟨Instr.le_of_badOperand h, exec_of_badOperand h⟩

/-- Settles O20, by the end of the step; HLT's byte is its opcode's alone. -/
theorem stepIsAllOrNothing : Obligations.StepIsAllOrNothing := by
  intro s t h
  obtain ⟨hr, ⟨cause, u, -, hsame, rfl⟩ | ⟨op, -, hbyte, hc⟩⟩ := step_raises_or_completes h
  · obtain ⟨hregs, hpc, hmem, -, -, hout⟩ := hsame
    exact .inr ⟨rfl, ⟨cause, by rw [raise_fault, hpc]⟩, hregs, hmem, hpc, hout⟩
  · have hrun := hc.runState_of_running hr
    have hhlt : s.mem.read s.pc = 0x01#8 ↔ op = .hlt := by
      rw [hbyte]
      cases op <;> decide
    rw [State.opcode_instrAt] at hrun
    refine .inl ⟨hc.fault, ?_⟩
    by_cases hop : op = .hlt
    · exact .inr ⟨hrun.trans (if_pos hop), hhlt.mpr hop⟩
    · exact .inl ⟨hrun.trans (if_neg hop), fun hb => hop (hhlt.mp hb)⟩

/-- Settles O21: `raise` sets two fields. -/
theorem raiseWritesStatusOnly : Obligations.RaiseWritesStatusOnly :=
  fun cause s => ⟨raise_runState s cause, raise_fault s cause, raise_regs s cause, raise_mem s cause, raise_pc s cause,
    raise_out s cause, raise_hidden s cause⟩

/-- Settles O22: no check of the step has that cause, and a completed instruction leaves the fault record. -/
theorem unsupportedOperationUnreachable : Obligations.UnsupportedOperationUnreachable := by
  refine ⟨fun _ _ _ => rfl, fun s t h hchanged => ?_⟩
  obtain ⟨-, ⟨cause, u, hcheck, -, rfl⟩ | ⟨op, -, -, hc⟩⟩ := step_raises_or_completes h
  · exact ⟨_, rfl, hcheck.ne_unsupportedOperation⟩
  · exact absurd hc.fault hchanged

/-- Settles O18, check by check in the order of the step. -/
theorem faultPriority : Obligations.FaultPriority := by
  intro s hr
  refine ⟨fun hpc => step_of_error hr (fetchInstr_of_pc_ge hpc), fun hpc => ⟨fun hop => ?opcode, fun op hop =>
    ⟨fun hw => step_of_operand_outside hr hpc hop hw, fun hw => ⟨fun v hv => ?register, fun hwf => ?completes⟩⟩⟩⟩
  case opcode => exact step_of_error hr (fetchInstr_of_decodeOpcode_none hpc hop)
  case register => exact (step_of_decodeOpcode hr hop hw).trans (exec_of_badOperand hv)
  case completes =>
    obtain ⟨t, ht⟩ := exec_completes hwf (afterFetch s op)
    exact ⟨t, (step_of_decodeOpcode hr hop hw).trans ht.next, ht.runState_ne_faulted hr, ht.fault⟩

end Sys2Proof.Machine
end

section
/-!
SUPPORT. The hidden registers are no input of a step (10_state.md R35, D14): states that agree on the architectural
state are fetched from and executed alike.
-/

namespace Sys2Proof.Machine

variable {s t : State} {a : Byte} {op : Opcode}

/-- The state with other hidden registers. -/
def State.withHidden (s : State) (hidden : Hidden) : State := { s with hidden := hidden }

theorem SameArchitecture.eq_withHidden (h : SameArchitecture s t) : t = s.withHidden t.hidden := by
  obtain ⟨regs, pc, mem, runState, fault, out, hidden⟩ := t
  obtain ⟨rfl, rfl, rfl, rfl, rfl, rfl⟩ := h
  rfl

theorem sameOutcome_next (h : SameArchitecture s t) : SameOutcome (.next s) (.next t) :=
  .inl ⟨s, t, rfl, rfl, h⟩

theorem sameArchitecture_raise (cause : FaultCause) (h : SameArchitecture s t) :
    SameArchitecture (raise cause s) (raise cause t) := by
  obtain ⟨hregs, hpc, hmem, -, -, hout⟩ := h
  exact ⟨hregs, hpc, hmem, rfl, by rw [raise_fault, raise_fault, hpc], hout⟩

theorem sameArchitecture_afterFetch (h : SameArchitecture s t) :
    SameArchitecture (afterFetch s op) (afterFetch t op) := h

/-- A register check does not read the hidden registers, if what follows it does not. -/
theorem withReg_sameOutcome {k k' : RegIndex → Host.Outcome State Fault Refusal} (h : SameArchitecture s t)
    (hk : ∀ r, SameOutcome (k r) (k' r)) : SameOutcome (withReg a s k) (withReg a t k') := by
  unfold withReg
  cases regIndex a with
  | error cause => exact sameOutcome_next (sameArchitecture_raise cause h)
  | ok r => exact hk r

/-- No instruction reads the hidden registers. -/
theorem exec_sameOutcome (i : Instr) (h : SameArchitecture s t) : SameOutcome (exec i s) (exec i t) := by
  obtain ⟨hidden, rfl⟩ : ∃ hidden, t = s.withHidden hidden := ⟨_, h.eq_withHidden⟩
  have same : SameArchitecture s (s.withHidden hidden) := ⟨rfl, rfl, rfl, rfl, rfl, rfl⟩
  cases i with
  | hlt | ret => exact sameOutcome_next ⟨rfl, rfl, rfl, rfl, rfl, rfl⟩
  | ldi | prn | push | pop | call =>
    exact withReg_sameOutcome same fun r => sameOutcome_next ⟨rfl, rfl, rfl, rfl, rfl, rfl⟩
  | add | mul =>
    exact withReg_sameOutcome same fun d => withReg_sameOutcome same fun r =>
      sameOutcome_next ⟨rfl, rfl, rfl, rfl, rfl, rfl⟩

/-- The fetch reads `pc` and memory alone: both fetches fail with one cause, or both find the instruction of one
opcode. -/
theorem fetchInstr_congr (hpc : t.pc = s.pc) (hmem : t.mem = s.mem) :
    (∃ cause, fetchInstr s = .error cause ∧ fetchInstr t = .error cause) ∨
    ∃ op, fetchInstr s = .ok (s.instrAt op, afterFetch s op) ∧ fetchInstr t = .ok (s.instrAt op, afterFetch t op) := by
  have ht := fetchInstr_eq t
  rw [hpc, hmem] at ht
  have hs := fetchInstr_eq s
  by_cases hend : 256 ≤ s.pc
  · rw [if_pos hend] at hs ht
    exact .inl ⟨_, hs, ht⟩
  · rw [if_neg hend] at hs ht
    cases hop : decodeOpcode (s.mem.read s.pc) with
    | none =>
      simp only [hop] at hs ht
      exact .inl ⟨_, hs, ht⟩
    | some op =>
      simp only [hop] at hs ht
      split_ifs at hs ht
      · exact .inl ⟨_, hs, ht⟩
      · exact .inr ⟨op, hs, ht⟩

end Sys2Proof.Machine
end

section
/-!
SUPPORT. Runs (40_cycle.md R110, R120): where a step is taken, and a run cut in two.
-/

namespace Sys2Proof.Machine

variable {s : State}

theorem exists_step_eq_next (hr : s.runState = .running) : ∃ t, step s = .next t := by
  cases hf : fetchInstr s with
  | error cause => exact ⟨_, step_of_error hr hf⟩
  | ok p =>
    obtain ⟨t, ht⟩ := exists_exec_eq_next p.1 p.2
    exact ⟨t, (step_of_fetch hr hf).trans ht⟩

theorem step_of_halted (h : s.runState = .halted) : step s = .fault .engineHalted := by simp [step, h]

theorem step_of_faulted (h : s.runState = .faulted) : step s = .fault .engineFaulted := by simp [step, h]

theorem State.ended_iff : s.ended = true ↔ s.runState ≠ .running := decide_eq_true_iff

/-- A run from a terminal state stays there. -/
theorem runFor_of_ended (h : s.ended = true) (k : Nat) : runFor k s = s := by
  cases k with
  | zero => rfl
  | succ k =>
    cases hr : s.runState with
    | running => exact absurd hr (State.ended_iff.mp h)
    | halted => simp [runFor, step_of_halted hr]
    | faulted => simp [runFor, step_of_faulted hr]

theorem runFor_add (j k : Nat) (s : State) : runFor (j + k) s = runFor k (runFor j s) := by
  induction j generalizing s with
  | zero => rw [Nat.zero_add]; rfl
  | succ j ih =>
    by_cases hr : s.runState = .running
    · obtain ⟨t, ht⟩ := exists_step_eq_next hr
      simp [Nat.succ_add, runFor, ht, ih]
    · have hend := State.ended_iff.mpr hr
      rw [runFor_of_ended hend, runFor_of_ended hend, runFor_of_ended hend]

/-- A longer run than one that ended ends where that one did. -/
theorem runFor_eq_of_ended {j k : Nat} (h : (runFor j s).ended = true) (hjk : j ≤ k) : runFor k s = runFor j s := by
  obtain ⟨d, rfl⟩ := Nat.exists_eq_add_of_le hjk
  rw [runFor_add, runFor_of_ended h]

end Sys2Proof.Machine
end

section
/-!
SUPPORT. The step from decoded bytes (40_cycle.md R112, R117): the bytes at `pc`, and a table word placed there.
-/

namespace Sys2Proof

variable {b0 b1 b2 : Byte} {rest : List Byte} {i : Instr}

/-- Three bytes are enough for every opcode, so the first byte decides whether they decode. -/
theorem decode_three (h : decode [b0, b1, b2] = .ok (i, rest)) :
    ∃ op, decodeOpcode b0 = some op ∧ i = op.instr b1 b2 := by
  obtain ⟨op, hop, -, rfl, -⟩ := decode_cons_eq_ok.mp h
  exact ⟨op, hop, rfl⟩

theorem Opcode.one_le_width (op : Opcode) : 1 ≤ op.width := Nat.le_add_left 1 _

theorem Opcode.width_le (op : Opcode) : op.width ≤ 3 := Nat.succ_le_succ op.operandCount_le

end Sys2Proof

namespace Sys2Proof.Machine

variable {s : State} {op : Opcode} {i : Instr} {rest : List Byte} {b0 b1 b2 : Byte}

/-- The bytes at `pc` are the three that follow it, cut off at the end of memory. -/
theorem codeBytes_eq_take (s : State) :
    codeBytes s = [s.mem.read s.pc, s.mem.read (s.pc + 1), s.mem.read (s.pc + 2)].take (256 - s.pc) := by
  obtain h | h | h | h : s.pc + 2 < 256 ∨ s.pc = 254 ∨ s.pc = 255 ∨ 256 ≤ s.pc := by omega
  · have h0 : s.pc < 256 := by omega
    have h1 : s.pc + 1 < 256 := by omega
    simp only [codeBytes, List.filter_cons, decide_eq_true h0, decide_eq_true h1, decide_eq_true h]
    rw [List.take_of_length_le (by simp only [List.length_cons, List.length_nil]; omega)]
    rfl
  · simp [codeBytes, h]
  · simp [codeBytes, h]
  · have h0 : ¬ s.pc < 256 := by omega
    have h1 : ¬ s.pc + 1 < 256 := by omega
    have h2 : ¬ s.pc + 2 < 256 := by omega
    simp [codeBytes, h0, h1, h2, Nat.sub_eq_zero_of_le h]

/-- Where the bytes at `pc` decode, the opcode byte and the operand bytes its width calls for lie in memory. -/
theorem instrAt_of_decode_codeBytes (h : decode (codeBytes s) = .ok (i, rest)) :
    ∃ op, s.pc + op.width ≤ 256 ∧ decodeOpcode (s.mem.read s.pc) = some op ∧ i = s.instrAt op := by
  have hbytes := (codeBytes_eq_take s).symm.trans (encode_append_of_decode h)
  have hlen := congrArg List.length hbytes
  rw [List.length_take, List.length_append, length_encode] at hlen
  have hthree :=
    List.take_append_drop (256 - s.pc) [s.mem.read s.pc, s.mem.read (s.pc + 1), s.mem.read (s.pc + 2)]
  rw [hbytes, List.append_assoc] at hthree
  have hdec := congrArg decode hthree
  rw [decode_encode_append] at hdec
  obtain ⟨op, hop, rfl⟩ := decode_three hdec.symm
  have hwidth := op.one_le_width
  rw [Opcode.opcode_instr] at hlen
  exact ⟨op, by omega, hop, rfl⟩

/-! ### Placing an instruction -/

theorem placementAddress_add_le (s : State) {width : Nat} (h : width ≤ 256) :
    placementAddress s width + width ≤ 256 := by
  unfold placementAddress
  split <;> omega

theorem placementAddress_of_le {width : Nat} (h : s.pc + width ≤ 256) : placementAddress s width = s.pc := if_pos h

@[simp] theorem placeInstr_runState (bytes : List Byte) : (placeInstr bytes s).runState = .running := rfl

@[simp] theorem placeInstr_pc (bytes : List Byte) :
    (placeInstr bytes s).pc = placementAddress s (leadingWidth bytes) := rfl

theorem leadingWidth_of_decodeOpcode (hop : decodeOpcode b0 = some op) (tail : List Byte) :
    leadingWidth (b0 :: tail) = op.width := by
  simp [leadingWidth, hop]

/-- The placed bytes that lie in memory are read back from `pc` on. -/
theorem read_placeInstr {bytes : List Byte} {k : Nat} (hk : k < bytes.length)
    (hin : (placeInstr bytes s).pc + k < 256) :
    (placeInstr bytes s).mem.read ((placeInstr bytes s).pc + k) = bytes.getD k 0 := by
  rw [placeInstr_pc] at hin ⊢
  generalize hbase : placementAddress s (leadingWidth bytes) = base at hin ⊢
  obtain ⟨m, hm⟩ := Memory.writeBytes_isSome (bytes.take (256 - base)) base s.mem
    (by rw [List.length_take]; omega)
  have hmem : (placeInstr bytes s).mem = m := by simp [placeInstr, hbase, hm]
  rw [hmem, Memory.read_writeBytes hm, if_pos (by rw [List.length_take]; omega), Nat.add_sub_cancel_left]
  simp [List.getD_eq_getElem?_getD, show k < 256 - base by omega]

/-- The step after bytes that begin with an instruction are placed. -/
theorem step_placeInstr (hop : decodeOpcode b0 = some op) :
    step (placeInstr [b0, b1, b2] s) = exec (op.instr b1 b2) (afterFetch (placeInstr [b0, b1, b2] s) op) := by
  have hwidth := op.width_le
  have hfits : (placeInstr [b0, b1, b2] s).pc + op.width ≤ 256 := by
    rw [placeInstr_pc, leadingWidth_of_decodeOpcode hop]
    exact placementAddress_add_le s (by omega)
  have hcount : op.width = op.operandCount + 1 := rfl
  have hfirst := read_placeInstr (s := s) (bytes := [b0, b1, b2]) (k := 0) (by simp) (by omega)
  have ha : 1 ≤ op.operandCount → _ := fun h =>
    read_placeInstr (s := s) (bytes := [b0, b1, b2]) (k := 1) (by simp) (by omega)
  have hb : 2 ≤ op.operandCount → _ := fun h =>
    read_placeInstr (s := s) (bytes := [b0, b1, b2]) (k := 2) (by simp) (by omega)
  rw [step_of_decodeOpcode (placeInstr_runState _) (hfirst ▸ hop) hfits, Opcode.instr_congr ha hb]
  rfl

end Sys2Proof.Machine
end

section
/-!
The statements about the step and about runs (40_cycle.md, 10_state.md section 6).
-/

namespace Sys2Proof.Machine

/-- Settles O23: the fetch reads `pc` and memory alone, and no instruction reads the hidden registers. -/
theorem hiddenRegistersAreUnobservable : Obligations.HiddenRegistersAreUnobservable := by
  intro s t h
  obtain ⟨-, hpc, hmem, hrun, -, -⟩ := id h
  cases hr : s.runState with
  | halted => exact .inr (.inl ⟨_, step_of_halted hr, step_of_halted (hrun.trans hr)⟩)
  | faulted => exact .inr (.inl ⟨_, step_of_faulted hr, step_of_faulted (hrun.trans hr)⟩)
  | running =>
    have hr' := hrun.trans hr
    rcases fetchInstr_congr hpc hmem with ⟨cause, hs, ht⟩ | ⟨op, hs, ht⟩
    · rw [step_of_error hr hs, step_of_error hr' ht]
      exact sameOutcome_next (sameArchitecture_raise cause h)
    · rw [step_of_fetch hr hs, step_of_fetch hr' ht]
      exact exec_sameOutcome _ (sameArchitecture_afterFetch h)

/-- Settles O14, by the run state. -/
theorem engineStepsExactlyWhenRunning : Obligations.EngineStepsExactlyWhenRunning :=
  fun _ => ⟨exists_step_eq_next, step_of_halted, step_of_faulted, fun h => runFor_of_ended (State.ended_iff.mpr h)⟩

/-- Settles O15: the shorter of two ended runs is where the longer one stays. -/
theorem runHasOneEnd : Obligations.RunHasOneEnd := by
  intro j k s hj hk
  rcases Nat.le_total j k with h | h
  · exact (runFor_eq_of_ended hj h).symm
  · exact runFor_eq_of_ended hk h

/-- Settles O19: bytes that decode lie in memory, so the fetch completes. -/
theorem stepRunsDecodedInstruction : Obligations.StepRunsDecodedInstruction := by
  intro s i rest hr h
  obtain ⟨op, hw, hop, rfl⟩ := instrAt_of_decode_codeBytes h
  rw [State.opcode_instrAt]
  exact ⟨step_of_decodeOpcode hr hop hw, rfl, rfl, rfl, rfl, rfl, rfl⟩

/-- Settles O54: the placed bytes the instruction's width calls for are the ones the fetch reads. -/
theorem placedWordRuns : Obligations.PlacedWordRuns := by
  intro s nbits w i h
  obtain ⟨rest, hdec⟩ := decodeTableWord_eq_some h
  obtain ⟨op, hop, rfl⟩ := decode_three hdec
  rw [Opcode.opcode_instr]
  refine ⟨step_placeInstr hop, rfl, rfl, fun hfits => ?_⟩
  rw [← leadingWidth_of_decodeOpcode hop] at hfits
  exact placementAddress_of_le hfits

/-- Settles O28: the fetched HLT halts, and a HALTED state takes no step. -/
theorem hltEndsTheRun : Obligations.HltEndsTheRun := by
  intro s hr hpc hbyte
  have hop : decodeOpcode (s.mem.read s.pc) = some .hlt := decodeOpcode_eq_some_iff.mpr hbyte
  exact ⟨_, (step_of_decodeOpcode hr hop hpc).trans (exec_hlt _), rfl, rfl, rfl, step_of_halted rfl⟩

end Sys2Proof.Machine
end

section
/-!
SUPPORT. The stack pointer's moves and the stack accesses (43_stack.md R170, 20_memory.md R55), and what a round trip
through the stack leaves.
-/

namespace Sys2Proof.Machine

variable {s t : State} {a v : Byte}

theorem reg_decSp_sp (s : State) : s.decSp.reg spIndex = s.reg spIndex - 1#8 := by simp

theorem reg_incSp_sp (s : State) : s.incSp.reg spIndex = s.reg spIndex + 1#8 := by simp

theorem stackAddress_decSp (s : State) : stackAddress s.decSp = ((s.reg spIndex).toNat + 255) % 256 := by
  rw [stackAddress, reg_decSp_sp, BitVec.toNat_sub, Nat.add_comm]
  rfl

theorem stackAddress_incSp (s : State) : stackAddress s.incSp = ((s.reg spIndex).toNat + 1) % 256 := by
  rw [stackAddress, reg_incSp_sp, BitVec.toNat_add]
  rfl

/-- A write of the stack is read in the cell the pointer names, whatever else is done to registers and `pc`. -/
theorem read_writeStack (v : Byte) : (s.writeStack v).mem.read (stackAddress s) = v := stackByte_writeStack v

/-- The decremented pointer or a register the decrement does not touch. -/
theorem reg_decSp_operand (ha : a.toNat < 8) :
    s.decSp.reg ⟨a.toNat, ha⟩ = if a = 7#8 then s.decSp.reg spIndex else s.reg ⟨a.toNat, ha⟩ := by
  split
  case isTrue h7 => subst h7; rfl
  case isFalse h7 => exact State.reg_decSp_of_ne (ne_spIndex_of_ne ha h7)

/-- PUSH then POP into a register other than the stack pointer: the pointer is back, and the register holds what was
pushed. -/
theorem exec_push_pop {p q : Byte} (hp : p.toNat < 8) (hq : q.toNat < 8) (hq7 : q ≠ 7#8) (s : State) :
    ∃ t u, exec (.push p) s = .next t ∧ exec (.pop q) t = .next u ∧ u.reg spIndex = s.reg spIndex ∧
      u.reg ⟨q.toNat, hq⟩ = s.decSp.reg ⟨p.toNat, hp⟩ := by
  have notSp := ne_spIndex_of_ne hq hq7
  refine ⟨_, _, exec_push s hp, exec_pop _ hq, ?pointer, ?value⟩
  case pointer => simp [notSp.symm]
  case value =>
    have popped := stackByte_writeStack (s := s.decSp) (s.decSp.reg ⟨p.toNat, hp⟩)
    rw [State.reg_advance, State.reg_incSp, if_neg notSp, State.reg_setReg, if_pos rfl]
    exact popped

/-- A step that runs CALL with a good operand: the jump goes through the operand byte it fetched, and the return address
is in the cell the decremented pointer names. -/
theorem step_call (hr : s.runState = .running) (hbyte : s.mem.read s.pc = 0x50#8) (hpc : s.pc ≤ 254)
    (ha : (s.mem.read (s.pc + 1)).toNat < 8) :
    ∃ t, step s = .next t ∧ t.runState = .running ∧
      t.pc = (s.decSp.reg ⟨(s.mem.read (s.pc + 1)).toNat, ha⟩).toNat ∧ t.reg spIndex = s.decSp.reg spIndex ∧
      (t.mem.read (stackAddress s.decSp)).toNat = (s.pc + 2) % 256 := by
  have hop : decodeOpcode (s.mem.read s.pc) = some .call := decodeOpcode_eq_some_iff.mpr hbyte
  have hwidth : Opcode.call.width = 2 := rfl
  refine ⟨_, (step_of_decodeOpcode hr hop (by omega)).trans (exec_call (afterFetch s .call) ha), hr, rfl, rfl, ?_⟩
  have stored := read_writeStack (s := (afterFetch s .call).decSp) (returnAddress s)
  exact (congrArg BitVec.toNat stored).trans toNat_returnAddress

end Sys2Proof.Machine
end

section
/-!
The statements about the stack and subroutines (43_stack.md, 44_subroutine.md).
-/

namespace Sys2Proof.Machine

/-- Settles O39: the round trip, and the same round trip after LDI. -/
theorem pushPopLaw : Obligations.PushPopLaw := by
  refine ⟨fun p q s hp hq hq7 => ?general, fun v s => ?afterLdi⟩
  case general =>
    obtain ⟨t, u, ht, hu, hsp, hval⟩ := exec_push_pop hp hq hq7 s
    refine ⟨t, u, ht, hu, hsp, fun hp7 => ?_⟩
    rw [hval, reg_decSp_operand hp, if_neg hp7]
  case afterLdi =>
    have h0 : (0#8).toNat < 8 := by decide
    have h1 : (1#8).toNat < 8 := by decide
    have hr := exec_ldi (b := v) s h0
    obtain ⟨t, u, ht, hu, hsp, hval⟩ :=
      exec_push_pop h0 h1 (by decide) ((s.setReg ⟨(0#8).toNat, h0⟩ v).advance 3)
    refine ⟨_, t, u, hr, ht, hu, ?value, hsp.trans ?pointer⟩
    case value =>
      refine hval.trans ((reg_decSp_operand h0).trans ?_)
      simp
    case pointer => simp [spIndex]

/-- Settles O36: the decrement, then the write of the register as it is after the decrement. -/
theorem pushResult : Obligations.PushResult := by
  intro a s ha
  refine ⟨_, exec_push s ha, ?pointer, rfl, ?stored, rfl⟩
  case pointer => exact stackAddress_decSp s
  case stored => exact (read_writeStack (s := s.decSp) _).trans (reg_decSp_operand ha)

/-- Settles O37: the register's write comes before the increment, which only r7 shows. -/
theorem popResult : Obligations.PopResult := by
  intro a s ha
  refine ⟨_, exec_pop s ha, fun h7 => ?other, fun h7 => ?sp, rfl⟩
  case other =>
    have notSp := ne_spIndex_of_ne ha h7
    refine ⟨?value, ?pointer⟩
    case value => simp [notSp, stackByte, stackAddress]
    case pointer =>
      have kept : (s.readStack.setReg ⟨a.toNat, ha⟩ (stackByte s)).reg spIndex = s.reg spIndex := by
        simp [notSp.symm]
      have moved := stackAddress_incSp (s.readStack.setReg ⟨a.toNat, ha⟩ (stackByte s))
      rwa [kept] at moved
  case sp =>
    subst h7
    have moved := stackAddress_incSp (s.readStack.setReg spIndex (stackByte s))
    rwa [State.reg_setReg, if_pos rfl] at moved

/-- Settles O41: the decrement, the write of the return address, and the jump through the register after both. -/
theorem callResult : Obligations.CallResult := by
  intro a s ha
  refine ⟨_, exec_call s ha, stackAddress_decSp s, rfl, ?stored, congrArg BitVec.toNat (reg_decSp_operand ha)⟩
  case stored =>
    exact (congrArg BitVec.toNat (read_writeStack (s := s.decSp) (returnAddress s))).trans toNat_returnAddress

/-- Settles O44: the jump to the byte read, then the increment. -/
theorem retResult : Obligations.RetResult :=
  fun s => ⟨_, exec_ret s, rfl, (stackByte s).isLt, stackAddress_incSp (s.readStack.setPc (stackByte s).toNat)⟩

/-- Settles O13: the stack pointer's value is an address inside memory. -/
theorem stackAccessNeverFails : Obligations.StackAccessNeverFails := by
  intro cls v s
  refine ⟨?read, ?write⟩
  case read => rw [memRead_of_lt cls (s.reg 7).isLt, BitVec.ofNat_toNat, BitVec.setWidth_eq]; rfl
  case write =>
    rw [memWrite_of_lt cls v.toNat (s.reg 7).isLt, BitVec.ofNat_toNat, BitVec.ofNat_toNat, BitVec.setWidth_eq,
      BitVec.setWidth_eq]
    rfl

/-- Settles O40: the fetch after PUSH reads the cell PUSH wrote. -/
theorem storedByteIsFetched : Obligations.StoredByteIsFetched := by
  intro a s t ha h hpc i u hf
  have hread : t.mem.read t.pc = s.decSp.reg ⟨a.toNat, ha⟩ := by
    rw [hpc]
    cases h.symm.trans (exec_push s ha)
    exact read_writeStack (s := s.decSp) _
  exact ⟨(ir_of_fetchInstr hf).trans hread, (byte_of_decodeOpcode (decodeOpcode_of_fetchInstr hf)).symm.trans hread⟩

/-- Settles O43: the jump is through the operand latched before the write. -/
theorem callUsesLatchedOperand : Obligations.CallUsesLatchedOperand := by
  intro s ha hr hbyte hpc hown
  obtain ⟨t, ht, -, htarget, -, hstored⟩ := step_call hr hbyte hpc ha
  exact ⟨t, ht, htarget, hown ▸ hstored⟩

/-- Settles O45: RET reads the cell CALL wrote and undoes CALL's decrement. -/
theorem callReturnLaw : Obligations.CallReturnLaw := by
  intro s hr hpc hbyte ha
  obtain ⟨t, ht, hrun, htarget, hsp, hstored⟩ := step_call hr hbyte (by omega) ha
  rw [Nat.mod_eq_of_lt (by omega)] at hstored
  refine ⟨t, ht, fun hret => ?_⟩
  have hop : decodeOpcode (t.mem.read t.pc) = some .ret := decodeOpcode_eq_some_iff.mpr hret
  have hinside : t.pc < 256 := htarget ▸ (s.decSp.reg _).isLt
  refine ⟨_, (step_of_decodeOpcode hrun hop hinside).trans (exec_ret _), ?pc, ?pointer, ?left⟩
  case pc =>
    have sameCell : stackAddress t = stackAddress s.decSp := congrArg BitVec.toNat hsp
    rw [← sameCell] at hstored
    exact hstored
  case pointer =>
    have restored : t.incSp.reg spIndex = s.reg spIndex := by
      rw [reg_incSp_sp, hsp, reg_decSp_sp, BitVec.sub_add_cancel]
    exact restored
  case left => exact stackAddress_decSp s ▸ hstored

end Sys2Proof.Machine
end

section
/-!
SUPPORT. What an instruction may write (10_state.md R21, R37), by group: the register writers LDI, ADD and MUL, PRN, the
storing PUSH and CALL, and POP.
-/

namespace Sys2Proof.Machine

variable {s t u : State} {i : Instr} {a b : Byte}

theorem SameRegistersBut.trans {l l' : List Nat} (h : SameRegistersBut l s t) (h' : SameRegistersBut l' t u) :
    SameRegistersBut (l ++ l') s u := by
  intro r hr
  rw [List.mem_append, not_or] at hr
  exact (h' r hr.2).trans (h r hr.1)

/-- An instruction other than HLT with good register operands leaves run state and fault record. -/
theorem sameStatus_of_exec (hi : i.opcode ≠ .hlt) (good : ∀ b ∈ i.registerOperands, b.toNat < 8)
    (h : exec i s = .next t) : SameStatus s t := by
  have completed := Completes.of_exec (Instr.wellFormed_iff.mpr good) h
  exact ⟨completed.runState.trans (if_neg hi), completed.fault⟩

/-- An instruction that answers raises, or what its meaning says of good operands holds. -/
theorem raises_or_of_wellFormed {P : Prop} (h : exec i s = .next t) (hP : i.wellFormed = true → P) :
    (∃ cause, t = raise cause s) ∨ P := by
  rcases exec_cases h with ⟨v, -, ht⟩ | ⟨hwf, -⟩
  · exact .inl ⟨_, ht⟩
  · exact .inr (hP hwf)

/-- LDI, ADD and MUL write the register `a` names, or they raise. -/
theorem exec_ldi_add_mul_cases
    (h : exec (.ldi a b) s = .next t ∨ exec (.add a b) s = .next t ∨ exec (.mul a b) s = .next t) :
    (∃ cause, t = raise cause s) ∨ ∃ (ha : a.toNat < 8) (v : Byte), t = (s.setReg ⟨a.toNat, ha⟩ v).advance 3 := by
  rcases h with h | h | h
  case inl =>
    refine raises_or_of_wellFormed h fun hwf => ?_
    have good := Instr.wellFormed_iff.mp hwf
    exact ⟨good a (.head _), _, Host.Outcome.next.inj (h.symm.trans (exec_ldi s _))⟩
  case inr.inl =>
    refine raises_or_of_wellFormed h fun hwf => ?_
    have good := Instr.wellFormed_iff.mp hwf
    exact ⟨good a (.head _), _, Host.Outcome.next.inj (h.symm.trans (exec_add s _ (good b (.tail _ (.head _)))))⟩
  case inr.inr =>
    refine raises_or_of_wellFormed h fun hwf => ?_
    have good := Instr.wellFormed_iff.mp hwf
    exact ⟨good a (.head _), _, Host.Outcome.next.inj (h.symm.trans (exec_mul s _ (good b (.tail _ (.head _)))))⟩

theorem exec_prn_cases (h : exec (.prn a) s = .next t) :
    (8 ≤ a.toNat ∧ ∃ cause, t = raise cause s) ∨ (a.toNat < 8 ∧ ∃ v, t = (s.emit v).advance 2) := by
  rcases withReg_cases h with ⟨ha, ht⟩ | ⟨ha, ht⟩
  · exact .inr ⟨ha, _, (Host.Outcome.next.inj ht).symm⟩
  · exact .inl ⟨ha, _, ht⟩

/-- PUSH and CALL decrement the stack pointer, write the cell it names and move `pc`, or they raise. -/
theorem exec_push_or_call_cases (h : exec (.push a) s = .next t ∨ exec (.call a) s = .next t) :
    (8 ≤ a.toNat ∧ ∃ cause, t = raise cause s) ∨
    (a.toNat < 8 ∧ ∃ v target, t = (s.decSp.writeStack v).setPc target) := by
  by_cases ha : a.toNat < 8
  · exact .inr ⟨ha, exec_push_or_call ha h⟩
  · have ha := Nat.not_lt.mp ha
    refine .inl ⟨ha, .outOfBounds .reg a.toNat, ?_⟩
    rcases h with h | h <;> exact Host.Outcome.next.inj (h.symm.trans (withReg_of_ge ha _))

theorem exec_pop_cases (h : exec (.pop a) s = .next t) :
    (8 ≤ a.toNat ∧ ∃ cause, t = raise cause s) ∨
    ∃ ha : a.toNat < 8, t = ((s.readStack.setReg ⟨a.toNat, ha⟩ (stackByte s)).incSp).advance 2 := by
  rcases withReg_cases h with ⟨ha, ht⟩ | ⟨ha, ht⟩
  · exact .inr ⟨ha, (Host.Outcome.next.inj ht).symm⟩
  · exact .inl ⟨ha, _, ht⟩

theorem exec_ret_eq (h : exec .ret s = .next t) : t = (s.readStack.setPc (stackByte s).toNat).incSp :=
  (Host.Outcome.next.inj h).symm

/-- The decrement and the increment write the stack pointer alone. -/
theorem sameRegistersBut_decSp : SameRegistersBut [7] s s.decSp := sameRegistersBut_setReg spIndex _

theorem sameRegistersBut_incSp : SameRegistersBut [7] s s.incSp := sameRegistersBut_setReg spIndex _

end Sys2Proof.Machine
end

section
/-!
The statements about frames (10_state.md section 1, 20_memory.md section 2).
-/

namespace Sys2Proof.Machine

/-- Settles O46: a raise writes the status alone, and a completed instruction one register and `pc`. -/
theorem registerInstructionFrame : Obligations.RegisterInstructionFrame := by
  refine fun a b s t => ⟨fun h => ?frame, fun h ha => ?ldiStatus, fun h ha hb => ?aluStatus⟩
  case frame =>
    rcases exec_ldi_add_mul_cases h with ⟨cause, rfl⟩ | ⟨ha, v, rfl⟩
    · exact ⟨fun _ _ => rfl, fun _ => rfl, rfl, rfl⟩
    · exact ⟨sameRegistersBut_setReg ⟨_, ha⟩ v, fun _ => rfl, rfl, rfl⟩
  case ldiStatus =>
    have good : ∀ v ∈ [a], v.toNat < 8 := by simpa using ha
    exact sameStatus_of_exec (i := .ldi a b) nofun good h
  case aluStatus =>
    have good : ∀ v ∈ [a, b], v.toNat < 8 := by simpa using ⟨ha, hb⟩
    exact h.elim (sameStatus_of_exec nofun good) (sameStatus_of_exec nofun good)

/-- Settles O47: HLT writes run state and `pc`, PRN output and `pc`, and a raise the status alone. -/
theorem hltPrnFrame : Obligations.HltPrnFrame := by
  refine fun a s t => ⟨fun h => ?frame, fun h => ?hlt, fun h => ?prn⟩
  case frame =>
    rcases h with h | h
    · cases h
      exact ⟨fun _ => rfl, fun _ => rfl, rfl⟩
    · rcases exec_prn_cases h with ⟨-, cause, rfl⟩ | ⟨-, v, rfl⟩
      · exact ⟨fun _ => rfl, fun _ => rfl, rfl⟩
      · exact ⟨fun _ => rfl, fun _ => rfl, rfl⟩
  case hlt =>
    cases h
    exact ⟨rfl, rfl⟩
  case prn =>
    rcases exec_prn_cases h with ⟨hbad, cause, rfl⟩ | ⟨hgood, v, rfl⟩
    · exact ⟨fun ha => by omega, fun _ => rfl⟩
    · exact ⟨fun _ => ⟨rfl, rfl⟩, fun ha => by omega⟩

/-- Settles O48: a raise writes the status alone, and PUSH and CALL the stack pointer, the cell it then names, MAR, MDR
and `pc`. -/
theorem storingInstructionFrame : Obligations.StoringInstructionFrame := by
  intro a s t h
  rcases exec_push_or_call_cases h with ⟨hbad, cause, rfl⟩ | ⟨hgood, v, target, rfl⟩
  · exact ⟨fun _ _ => rfl, fun _ _ => rfl, rfl, ⟨rfl, rfl, rfl⟩, fun ha => by omega,
      fun _ => ⟨fun _ => rfl, fun _ => rfl⟩⟩
  · exact ⟨sameRegistersBut_decSp, sameMemoryBut_writeStack (s := s.decSp) v, rfl, ⟨rfl, rfl, rfl⟩,
      fun _ => ⟨rfl, rfl⟩, fun ha => by omega⟩

/-- Settles O49: POP writes its register, the stack pointer, MAR, MDR and `pc`, RET the same without a register of its
own, and a raise the status alone. -/
theorem poppingInstructionFrame : Obligations.PoppingInstructionFrame := by
  refine fun a s t => ⟨fun h => ?frame, fun h => ?pop, fun h => ?ret⟩
  case frame =>
    rcases h with h | h
    · rcases exec_pop_cases h with ⟨-, cause, rfl⟩ | ⟨ha, rfl⟩
      · exact ⟨fun _ => rfl, rfl, rfl, rfl, rfl⟩
      · exact ⟨fun _ => rfl, rfl, rfl, rfl, rfl⟩
    · obtain rfl := exec_ret_eq h
      exact ⟨fun _ => rfl, rfl, rfl, rfl, rfl⟩
  case pop =>
    rcases exec_pop_cases h with ⟨hbad, cause, rfl⟩ | ⟨hgood, rfl⟩
    · exact ⟨fun _ _ => rfl, fun ha => by omega, fun _ _ => rfl⟩
    · have popped : SameRegistersBut [a.toNat] s (s.readStack.setReg ⟨a.toNat, hgood⟩ (stackByte s)) :=
        sameRegistersBut_setReg (s := s.readStack) ⟨a.toNat, hgood⟩ _
      exact ⟨popped.trans sameRegistersBut_incSp, fun _ => ⟨rfl, rfl⟩, fun ha => by omega⟩
  case ret =>
    obtain rfl := exec_ret_eq h
    exact ⟨sameRegistersBut_incSp (s := s.readStack.setPc _), rfl, rfl⟩

/-- Settles O50: PUSH and CALL end in their write of the stack, POP and RET begin with their read of it. -/
theorem accessRegistersShowStackAccess : Obligations.AccessRegistersShowStackAccess := by
  refine fun a s t ha => ⟨fun h => ?write, fun h => ?read⟩
  case write =>
    obtain ⟨v, target, rfl⟩ := exec_push_or_call ha h
    exact ⟨rfl, (read_writeStack (s := s.decSp) v).symm⟩
  case read =>
    rcases h with h | h
    · cases h.symm.trans (exec_pop s ha)
      exact ⟨rfl, rfl⟩
    · obtain rfl := exec_ret_eq h
      exact ⟨rfl, rfl⟩

end Sys2Proof.Machine
end

section
/-!
The statements about the results of HLT, LDI, PRN, ADD and MUL (41_hlt_ldi_prn.md, 42_alu.md).
-/

namespace Sys2Proof.Machine

/-- Settles O27: HLT's meaning writes run state and `pc`. -/
theorem hltResult : Obligations.HltResult :=
  fun s => ⟨_, exec_hlt s, rfl, rfl, rfl, fun _ => rfl, fun _ => rfl, rfl, rfl⟩

/-- Settles O29: LDI's meaning is a register write, read back. -/
theorem ldiResult : Obligations.LdiResult := by
  intro a b s ha
  refine ⟨_, exec_ldi s ha, ?value, rfl⟩
  case value => simp

/-- Settles O31: PRN's meaning writes output and `pc`. -/
theorem prnResult : Obligations.PrnResult :=
  fun _ s ha => ⟨_, exec_prn s ha, rfl, rfl, fun _ => rfl, fun _ => rfl, rfl, rfl⟩

end Sys2Proof.Machine

namespace Sys2Proof

open Machine in
/-- Settles O34: the result is read back from the first register, and the register write leaves a second one that
differs. -/
theorem aluResult : Obligations.AluResult := by
  intro a b s ha hb
  have other : ∀ v : Byte, a ≠ b →
      (s.setReg ⟨a.toNat, ha⟩ v).reg ⟨b.toNat, hb⟩ = s.reg ⟨b.toNat, hb⟩ := by
    intro v hne
    refine sameRegistersBut_setReg ⟨a.toNat, ha⟩ v _ fun hmem => hne ?_
    exact (BitVec.eq_of_toNat_eq (List.mem_singleton.mp hmem)).symm
  refine ⟨⟨_, exec_add s ha hb, ?sum, other _, rfl⟩, ⟨_, exec_mul s ha hb, ?product, other _, rfl⟩⟩
  case sum => simp
  case product => simp

end Sys2Proof
end

section
/-!
SUPPORT. An image that does not fit in memory is refused (70_reset_and_hazards.md R243, D11).
-/

namespace Sys2Proof.Machine

/-- Bytes that were written all lie in memory. -/
theorem Memory.add_length_le_of_writeBytes {bytes : List Byte} {a : Nat} {m m' : Memory} (ha : a ≤ 256)
    (h : Memory.writeBytes bytes a m = some m') : a + bytes.length ≤ 256 := by
  induction bytes generalizing a m with
  | nil => exact ha
  | cons b bs ih =>
    unfold Memory.writeBytes at h
    split at h
    · cases h
    · obtain ⟨hin, -⟩ := Memory.writeChecked_eq_some ‹_›
      have := ih (by omega) h
      rw [List.length_cons]
      omega

theorem load_of_writeBytes {image : List Byte} {m : Memory} (h : Memory.writeBytes image 0 State.reset.mem = some m) :
    load (some image) = .ok { State.reset with mem := m } := by
  simp [load, h]

theorem load_of_length_gt {image : List Byte} (h : 256 < image.length) : load (some image) = .error .imageTooLong := by
  cases hw : Memory.writeBytes image 0 State.reset.mem with
  | none => simp [load, hw]
  | some m =>
    have := Memory.add_length_le_of_writeBytes (by decide) hw
    omega

end Sys2Proof.Machine
end

section
/-!
The statements about the ports (70_reset_and_hazards.md section 2, 60_exceptions.md sections 2, 5 and 6).
-/

namespace Sys2Proof.Machine

/-- Settles O51, by whether the image fits in memory. -/
theorem loadWritesTheImage : Obligations.LoadWritesTheImage := by
  refine ⟨rfl, fun image => ⟨load_of_length_gt, fun hlen => ?_⟩⟩
  obtain ⟨m, hm⟩ := Memory.writeBytes_isSome image 0 State.reset.mem (by omega)
  refine ⟨_, load_of_writeBytes hm, ?legal, fun a => ?cells, rfl, rfl, rfl, rfl, rfl⟩
  case legal =>
    have hwf : m.wf = true := Memory.wf_writeBytes hm Memory.wf_reset
    exact (legal_iff_of_ne_faulted RunState.noConfusion).mpr ⟨hwf, Nat.zero_le 256, rfl⟩
  case cells =>
    have hread := Memory.read_writeBytes hm a
    simpa [State.reset, Memory.read] using hread

/-- Settles O52: the open status is moved past 0, and every other code is a literal. -/
theorem statusPort : Obligations.StatusPort := by
  refine ⟨?nonzero, fun s hr => ?running, fun s hr => ?halted, fun _ _ => rfl, fun _ _ _ => rfl, fun _ _ => rfl, rfl,
    fun _ _ _ _ _ => ⟨rfl, rfl, rfl, rfl⟩, rfl, rfl, rfl⟩
  case nonzero =>
    unfold Config.oobExitStatus
    split <;> omega
  case running => simp [exitStatus, hr]
  case halted => simp [exitStatus, hr]

/-- Settles O53: each byte shown is a checked read. -/
theorem traceShowsAbsentBytes : Obligations.TraceShowsAbsentBytes := by
  refine fun s => ⟨rfl, rfl, fun k hk => ?bytes, fun r => ?register⟩
  case bytes =>
    match k, hk with
    | 0, _ | 1, _ | 2, _ => rfl
  case register => simp [traceView, State.reg]

end Sys2Proof.Machine
end
